-- ==== Sys2Proof/Word.lean ====
section
/-!
DEFINITION. The words of the block (spec/00_scope.md R7, spec/10_state.md R13, spec/30_encoding.md R54):
each is an unsigned bit vector whose bit 0 is the least significant bit.
-/

namespace Sys2Proof

/-- One byte of a frame, a tone index, a `gain` operand. -/
abbrev Byte := BitVec 8

/-- A wire frame `F[63:0]`; byte 0 is bits 63:56 (spec/20_memory.md R33). -/
abbrev Frame := BitVec 64

/-- The 40 header bits of a frame, its bytes 0 to 4 (spec/30_encoding.md R50). -/
abbrev Header := BitVec 40

/-- A command word `CMD[83:0]` (spec/30_encoding.md R54). -/
abbrev CommandWord := BitVec 84

/-- A frequency in centi-hertz, Hz times 100 (spec/41_tone_table_rom.md R90). -/
abbrev CentiHertz := BitVec 18

/-- The operand of LDPHASE, `data[31:0]` (spec/43_phase_control.md R132). -/
abbrev PhaseOperand := BitVec 32

/-- One PCM sample: a 16-bit two's-complement number (spec/10_state.md R13). -/
abbrev PcmSample := BitVec 16

/-- A 4-bit gain step (spec/30_encoding.md R50). -/
abbrev GainStep := BitVec 4

end Sys2Proof
end

