-- ==== Sys2Proof/Syntax.lean ====
section
/-!
DEFINITION. The instructions of the block: one constructor per row of spec/opcode_table.json (the six commands of
spec/30_encoding.md R55 and the two wire-frame patterns of R52 and R53), and the two forms in which one reaches the block.
-/

namespace Sys2Proof

/-- The frame class: "3200" is class 0, "1600" is class 1 (spec/00_scope.md R4). -/
inductive FrameClass where
  | c3200
  | c1600
  deriving DecidableEq, Repr

/-- One constructor per row of spec/opcode_table.json, with the fields that row uses (spec/30_encoding.md R54). -/
inductive Instr where
  /-- `NOP` (spec/43_phase_control.md R130). -/
  | nop
  /-- `INIT` (spec/43_phase_control.md R131). -/
  | init
  /-- `LDPHASE p`, the phase is `data[31:0]` (spec/43_phase_control.md R132). -/
  | ldphase (phase : PhaseOperand)
  /-- `ENCODE class, tone, gain` (spec/40_frame_codec.md R71, R72). -/
  | encode (cls : FrameClass) (tone gain : Byte)
  /-- `DECODE class, frame` (spec/40_frame_codec.md R74). -/
  | decode (cls : FrameClass) (frame : Frame)
  /-- `LOOKUP tone` (spec/41_tone_table_rom.md R93). -/
  | lookup (tone : Byte)
  /-- A wire frame with the class-"3200" pattern (spec/30_encoding.md R52). -/
  | tone3200 (gainStep : GainStep) (toneIndex checksum : Byte)
  /-- A wire frame with the class-"1600" pattern (spec/30_encoding.md R53). -/
  | tone1600 (gainStep : GainStep) (toneIndex checksum : Byte)
  deriving DecidableEq, Repr

/-- An instruction as the host presents it: the two formats of spec/opcode_table.json, `CMD84` and `FRAME64`. -/
inductive InstrWord where
  /-- A command word (spec/30_encoding.md R54). -/
  | command (w : CommandWord)
  /-- A wire frame by itself (spec/30_encoding.md R50); DESIGN CHOICE, log 2. -/
  | wire (f : Frame)
  deriving DecidableEq, Repr

end Sys2Proof
end

