-- ==== Sys2Proof/Decode.lean ====
section
/-!
DEFINITION. The encodings of spec/30_encoding.md: the wire frame (R50 to R53), the command word (R54 to R58, R63), the
decoder, total on every word and rejecting by name, the encoder after it, and the notation of R62.
-/

namespace Sys2Proof

/-! ### The wire frame -/

/-- The 64-bit silence constants `SILENCE[c]` (spec/00_scope.md R4). -/
def silence : FrameClass → Frame
  | .c3200 => 0x010009439CE42108
  | .c1600 => 0x010004002575DDF2

/-- `HEADER[c] = SILENCE[c] >> 24`, the top 40 bits (spec/00_scope.md R4, spec/30_encoding.md R56). -/
def headerOf (cls : FrameClass) : Header := (silence cls).extractLsb' 24 40

/-- A frame from its fields, most significant first (spec/30_encoding.md R50). -/
def packFrame (header : Header) (indicator gainStep : GainStep) (toneIndex checksum : Byte) : Frame :=
  header ++ indicator ++ gainStep ++ toneIndex ++ checksum

/-- A frame with the tone pattern of its class: the class's header and indicator `0xF` (spec/30_encoding.md R52, R53). -/
def toneFrame (cls : FrameClass) (gainStep : GainStep) (toneIndex checksum : Byte) : Frame :=
  packFrame (headerOf cls) 0xF gainStep toneIndex checksum

/-- The fields of a frame (spec/30_encoding.md R50). -/
def frameHeader (f : Frame) : Header := f.extractLsb' 24 40
def frameIndicator (f : Frame) : GainStep := f.extractLsb' 20 4
def frameGainStep (f : Frame) : GainStep := f.extractLsb' 16 4
def frameToneIndex (f : Frame) : Byte := f.extractLsb' 8 8
def frameChecksum (f : Frame) : Byte := f.extractLsb' 0 8

/-- The 8 bytes of a frame as they stand on the wire, byte 0 first, most significant (spec/20_memory.md R33);
a list of any other length is no frame ("exactly 8 bytes"). -/
def frameOfBytes : List Byte → Option Frame
  | [b0, b1, b2, b3, b4, b5, b6, b7] => some (b0 ++ b1 ++ b2 ++ b3 ++ b4 ++ b5 ++ b6 ++ b7)
  | _ => none

/-! ### The decoder -/

/-- Why a word is no instruction. -/
inductive DecodeError where
  /-- `op` is 6 or 7 (spec/30_encoding.md R58). -/
  | reservedOp (op : BitVec 3)
  /-- A bare wire frame with neither tone pattern (spec/30_encoding.md R52, R53). -/
  | noTonePattern (f : Frame)
  deriving DecidableEq, Repr

/-- The fields of a command word (spec/30_encoding.md R54). -/
def cmdOp (w : CommandWord) : BitVec 3 := w.extractLsb' 81 3
def cmdClass (w : CommandWord) : FrameClass := if w.getLsbD 80 then .c1600 else .c3200
def cmdTone (w : CommandWord) : Byte := w.extractLsb' 72 8
def cmdGain (w : CommandWord) : Byte := w.extractLsb' 64 8
def cmdData (w : CommandWord) : BitVec 64 := w.extractLsb' 0 64

/-- The command a word stands for: by `op` alone, with the fields that command uses (spec/30_encoding.md R54, R55, R57);
`op` 6 and 7 select none (R58). -/
def decodeCommand (w : CommandWord) : Except DecodeError Instr :=
  match (cmdOp w).toNat with
  | 0 => .ok .nop
  | 1 => .ok .init
  | 2 => .ok (.ldphase ((cmdData w).extractLsb' 0 32))
  | 3 => .ok (.encode (cmdClass w) (cmdTone w) (cmdGain w))
  | 4 => .ok (.decode (cmdClass w) (cmdData w))
  | 5 => .ok (.lookup (cmdTone w))
  | _ => .error (.reservedOp (cmdOp w))

/-- The pattern a bare wire frame has: header of one class and indicator `0xF` (spec/30_encoding.md R52, R53). -/
def decodeWire (f : Frame) : Except DecodeError Instr :=
  if frameIndicator f = 0xF then
    if frameHeader f = headerOf .c3200 then .ok (.tone3200 (frameGainStep f) (frameToneIndex f) (frameChecksum f))
    else if frameHeader f = headerOf .c1600 then .ok (.tone1600 (frameGainStep f) (frameToneIndex f) (frameChecksum f))
    else .error (.noTonePattern f)
  else .error (.noTonePattern f)

/-- The decoder, total on every word. -/
def decode : InstrWord → Except DecodeError Instr
  | .command w => decodeCommand w
  | .wire f => decodeWire f

/-! ### The encoder -/

/-- The `class` bit (spec/30_encoding.md R54). -/
def classBit : FrameClass → BitVec 1
  | .c3200 => 0
  | .c1600 => 1

/-- A command word from its fields, most significant first (spec/30_encoding.md R54). -/
def packCommand (op : BitVec 3) (cls : BitVec 1) (tone gain : Byte) (data : BitVec 64) : CommandWord :=
  op ++ cls ++ tone ++ gain ++ data

/-- The canonical encoding, unused fields zero (spec/30_encoding.md R57, R63; R52, R53 for the frames). -/
def encode : Instr → InstrWord
  | .nop => .command (packCommand 0 0 0 0 0)
  | .init => .command (packCommand 1 0 0 0 0)
  | .ldphase p => .command (packCommand 2 0 0 0 (p.setWidth 64))
  | .encode cls tone gain => .command (packCommand 3 (classBit cls) tone gain 0)
  | .decode cls f => .command (packCommand 4 (classBit cls) 0 0 f)
  | .lookup tone => .command (packCommand 5 0 tone 0 0)
  | .tone3200 g t c => .wire (toneFrame .c3200 g t c)
  | .tone1600 g t c => .wire (toneFrame .c1600 g t c)

/-! ### Words numbered as spec/opcode_table.json numbers them -/

/-- The word of `nbits` bits and value `w`: the table's 64-bit rows are wire frames, its 84-bit rows (88 bits in whole
bytes) command words; a bit above the word's width does not exist at the port (log 1). -/
def tableWord (nbits w : Nat) : InstrWord :=
  if nbits ≤ 64 then .wire (BitVec.ofNat 64 w) else .command (BitVec.ofNat 84 w)

/-- The instruction the decoder reads from a word of the opcode table. -/
def decodeTableWord (nbits w : Nat) : Option Instr := (decode (tableWord nbits w)).toOption

/-! ### Notation (spec/30_encoding.md R62) -/

/-- The pseudo-command `DECODEP class, frame, phaseIn`: `LDPHASE` and then `DECODE`. -/
def decodep (cls : FrameClass) (f : Frame) (phaseIn : PhaseOperand) : List Instr := [.ldphase phaseIn, .decode cls f]

/-- The name of a frame class as the notation writes it. -/
def classText : FrameClass → String
  | .c3200 => "3200"
  | .c1600 => "1600"

/-- An instruction in the notation of spec/30_encoding.md R62, numbers in decimal; a bare wire frame is written as the
`DECODE` it stands for. -/
def asmText : Instr → String
  | .nop => "NOP"
  | .init => "INIT"
  | .ldphase p => "LDPHASE " ++ toString p.toNat
  | .encode cls tone gain => "ENCODE " ++ classText cls ++ ", " ++ toString tone.toNat ++ ", " ++ toString gain.toNat
  | .decode cls f => "DECODE " ++ classText cls ++ ", " ++ toString f.toNat
  | .lookup tone => "LOOKUP " ++ toString tone.toNat
  | .tone3200 g t c => "DECODE " ++ classText .c3200 ++ ", " ++ toString (toneFrame .c3200 g t c).toNat
  | .tone1600 g t c => "DECODE " ++ classText .c1600 ++ ", " ++ toString (toneFrame .c1600 g t c).toNat

end Sys2Proof
end

