-- ==== Sys2Proof/Machine/Operands.lean ====
section
/-!
DEFINITION. How the operands of the commands are assembled (spec/30_encoding.md R56): the frame class's sample count, the
bytes of a frame, and the bytes an encoder builds. No operand is sign-extended, scaled or shifted otherwise.
-/

namespace Sys2Proof.Machine

/-- `SAMPLE_COUNT[class]`: 160 or 320 (spec/00_scope.md R4, spec/40_frame_codec.md R75). -/
def sampleCount : FrameClass → Nat
  | .c3200 => 160
  | .c1600 => 320

/-- `B[k] = F[63 - 8k : 56 - 8k]`, for `k` below 8 (spec/00_scope.md R7). -/
def frameByte (f : Frame) (k : Nat) : Byte := f.extractLsb' (56 - 8 * k) 8

/-- Byte `k` of a header, `k` below 5 (spec/40_frame_codec.md R72). -/
def headerByte (h : Header) (k : Nat) : Byte := h.extractLsb' (32 - 8 * k) 8

/-- `B[5] = 0xF0 | gain[3:0]` on encode (spec/30_encoding.md R56). -/
def gainByte (gain : Byte) : Byte := 0xF0 ||| (gain.extractLsb' 0 4).setWidth 8

end Sys2Proof.Machine
end

