-- ==== Sys2Proof/Config.lean ====
section
/-!
DEFINITION. What an implementation fixes and the spec keeps as named parameters (spec/00_scope.md R5,
spec/93_implementation_defined.md U4, U5, U8, U9, U10). The values this model runs with are `Sys2Proof.Machine.cfg`.
-/

namespace Sys2Proof

/-- A mapped location of the tone table: `{FH[17:0], FL[17:0]}` (spec/41_tone_table_rom.md R90). -/
structure RomEntry where
  fh : CentiHertz
  fl : CentiHertz
  deriving DecidableEq, Repr

/-- The parameters the source leaves open (spec/00_scope.md R5): the tone table with its bound, the width of the phase
accumulator, the output scale as a positive rational, and the accuracy allowed to a hardware sine. -/
structure Config where
  /-- The top of the tone table, `MAX_INDEX` (decision D1). -/
  maxIndex : Byte
  /-- The DTMF bank, indices `0x00..0x0F` (spec/41_tone_table_rom.md R95). -/
  dtmf : List RomEntry
  /-- The Knox bank, indices `0x10..0x1F` (spec/41_tone_table_rom.md R96). -/
  knox : List RomEntry
  /-- The note bank from index `0x20` on (spec/41_tone_table_rom.md R97). -/
  notes : List CentiHertz
  /-- `PHASE_W`, the width of `PHASE` in bits (spec/10_state.md R15, decision D6). -/
  phaseWidth : Nat
  /-- `OUTPUT_SCALE` is `scaleNum / scaleDen` (spec/42_dual_tone_synthesizer.md R111, decision D7). -/
  scaleNum : Nat
  scaleDen : Nat
  /-- `SAMPLE_TOL` (spec/42_dual_tone_synthesizer.md R116, decision D9). -/
  sampleTol : Nat
  deriving DecidableEq, Repr

/-- A configuration the spec allows: one of the three historical bounds, whole banks, an accumulator that has
bits, a positive scale (spec/41_tone_table_rom.md R99, spec/92_eei_decisions.md D1, D4, D6, D7). -/
def Config.wf (c : Config) : Bool :=
  (c.maxIndex == 0x48 || c.maxIndex == 0x49 || c.maxIndex == 0x74) &&
  c.dtmf.length == 16 && c.knox.length == 16 && c.maxIndex.toNat < 0x20 + c.notes.length &&
  decide (0 < c.phaseWidth) && decide (0 < c.scaleNum) && decide (0 < c.scaleDen)

end Sys2Proof
end

