-- ==== Sys2Proof/Machine/Rom.lean ====
section
/-!
DEFINITION. The tone table (spec/41_tone_table_rom.md): the values of the configuration this model runs with, the bank
decode (R91) and `RomRead` (R92). It holds constants only; nothing writes the ROM (spec/20_memory.md R30).
-/

namespace Sys2Proof.Machine

/-- The row frequencies in hertz (spec/41_tone_table_rom.md R94). -/
def dtmfRow : Nat → Nat
  | 0 => 697
  | 1 => 770
  | 2 => 852
  | _ => 941

/-- The column frequencies in hertz (spec/41_tone_table_rom.md R94). -/
def dtmfCol : Nat → Nat
  | 0 => 1209
  | 1 => 1336
  | 2 => 1477
  | _ => 1633

/-- The DTMF entry at offset `k`: keypad order, row `k div 4`, column `k mod 4` (spec/41_tone_table_rom.md R95). -/
def dtmfEntry (k : Nat) : RomEntry :=
  ⟨BitVec.ofNat 18 (100 * dtmfCol (k % 4)), BitVec.ofNat 18 (100 * dtmfRow (k / 4))⟩

/-- The DTMF bank (spec/41_tone_table_rom.md R95). -/
def dtmfBank : List RomEntry := (List.range 16).map dtmfEntry

/-- The placeholder Knox bank: the DTMF bank in reverse order (spec/41_tone_table_rom.md R96, decision D4; log 7). -/
def knoxBank : List RomEntry := (List.range 16).map fun k => dtmfEntry (15 - k)

/-- The note bank C0 to C7 in centi-hertz, the normative table of spec/41_tone_table_rom.md R97, an octave a line. -/
def noteBank : List CentiHertz :=
  [1635, 1732, 1835, 1945, 2060, 2183, 2312, 2450, 2596, 2750, 2914, 3087] ++
  [3270, 3465, 3671, 3889, 4120, 4365, 4625, 4900, 5191, 5500, 5827, 6174] ++
  [6541, 6930, 7342, 7778, 8241, 8731, 9250, 9800, 10383, 11000, 11654, 12347] ++
  [13081, 13859, 14683, 15556, 16481, 17461, 18500, 19600, 20765, 22000, 23308, 24694] ++
  [26163, 27718, 29366, 31113, 32963, 34923, 36999, 39200, 41530, 44000, 46616, 49388] ++
  [52325, 55437, 58733, 62225, 65926, 69846, 73999, 78399, 83061, 88000, 93233, 98777] ++
  [104650, 110873, 117466, 124451, 131851, 139691, 147998, 156798, 166122, 176000, 186466, 197553] ++
  [209300]

/-- The configuration this model runs with: the default values of spec/00_scope.md R5 (log 6 to 11). -/
def cfg : Config where
  maxIndex := 0x74
  dtmf := dtmfBank
  knox := knoxBank
  notes := noteBank
  phaseWidth := 32
  scaleNum := 256
  scaleDen := 1
  sampleTol := 0

/-- The source's `ToneBank`, with the offset within the bank (spec/41_tone_table_rom.md R91). -/
inductive ToneBank where
  | dtmf (offset : Byte)
  | knox (offset : Byte)
  | note (offset : Byte)
  deriving DecidableEq, Repr

/-- The bank of an index (spec/41_tone_table_rom.md R91). -/
def bank (c : Config) (idx : Byte) : Option ToneBank :=
  if idx ≤ 0x0F then some (.dtmf idx)
  else if idx ≤ 0x1F then some (.knox (idx - 0x10))
  else if idx ≤ c.maxIndex then some (.note (idx - 0x20))
  else none

/-- `RomRead(idx)`: the entry of the index's bank, or none (spec/41_tone_table_rom.md R92). A note stands in both slots
(R97). -/
def romRead (c : Config) (idx : Byte) : Option RomEntry :=
  match bank c idx with
  | some (.dtmf k) => c.dtmf[k.toNat]?
  | some (.knox k) => c.knox[k.toNat]?
  | some (.note k) => (c.notes[k.toNat]?).map fun f => ⟨f, f⟩
  | none => none

end Sys2Proof.Machine
end

