-- ==== Sys2Proof/Machine/State.lean ====
section
/-!
DEFINITION. The state of one instance of the block (spec/10_state.md R13) with the inputs the host has still to give
(log 1), its reset value (spec/10_state.md R23), and the reasons a step can stop.
-/

namespace Sys2Proof.Machine

/-- A value of the phase accumulator: `PHASE_W` bits, unsigned (spec/10_state.md R15; log 9). -/
abbrev Phase := BitVec cfg.phaseWidth

/-- The values of `STATUS`, exactly seven (spec/60_exceptions.md R140, spec/93_implementation_defined.md U13); the codes
are `Status.code`. -/
inductive Status where
  | ok
  | headerMismatch
  | checksumMismatch
  | notToneIndicator
  | unknownToneIndex
  | indexOutOfRange
  | gainOutOfRange
  deriving DecidableEq, Repr

/-- How many locations the PCM space has (spec/20_memory.md R31). -/
abbrev pcmSize : Nat := 320

/-- The PCM space: one int16 at each of the offsets 0 to 319, addressed whole (spec/20_memory.md R31, R34; log 15). -/
structure Pcm where
  samples : List PcmSample
  size : samples.length = pcmSize
  deriving DecidableEq, Repr

/-- What the host can do to the block between commands (spec/70_reset_and_hazards.md R172). -/
inductive PortInput where
  /-- Give it a word to execute (spec/30_encoding.md R54). -/
  | word (w : InstrWord)
  /-- Apply reset (spec/70_reset_and_hazards.md R160). -/
  | reset
  deriving DecidableEq, Repr

/-- The state of one block instance: the registers of spec/10_state.md R13, and `port`, the model's own. -/
structure State where
  /-- `PHASE` (spec/10_state.md R14, R15). -/
  phase : Phase
  /-- `STATUS` (spec/10_state.md R17). -/
  status : Status
  /-- `FRAME_OUT` (spec/10_state.md R19). -/
  frameOut : Frame
  /-- `PCM[0..319]` (spec/10_state.md R20). -/
  pcm : Pcm
  /-- `PCM_LEN` (spec/10_state.md R20). -/
  pcmLen : BitVec 9
  /-- `LK_FOUND` (spec/10_state.md R18). -/
  lkFound : Bool
  /-- `LK_FH` (spec/10_state.md R18). -/
  lkFh : CentiHertz
  /-- `LK_FL` (spec/10_state.md R18). -/
  lkFl : CentiHertz
  /-- What the host has still to give, in issue order (spec/20_memory.md R40). DESIGN CHOICE, log 1: no register of the
  block; the spec's host is outside the block, and here its inputs stand in the state. -/
  port : List PortInput
  deriving DecidableEq, Repr

/-- What the host can read between commands (spec/10_state.md R13). -/
inductive HostReg where
  | phase
  | status
  | frameOut
  | pcm (i : Fin pcmSize)
  | pcmLen
  | lkFound
  | lkFh
  | lkFl
  deriving DecidableEq, Repr

/-- The reasons to fault: none. No step of this block faults, a failure is a value of `STATUS`
(spec/60_exceptions.md R145; spec/70_reset_and_hazards.md R172, "The block never stops by itself and never hangs"). -/
inductive Fault where
  deriving DecidableEq, Repr

/-- The reasons to refuse. -/
inductive Refusal where
  /-- Raised by an arm of `exec` for an instruction without a meaning; no arm does. Safe. -/
  | notModelled (mnemonic : String)
  /-- Raised by `step` for a command word with `op` 6 or 7, of which spec/30_encoding.md R58 says that a model refuses
  it. Safe. -/
  | reservedOp (op : BitVec 3)
  /-- Raised by `step` for a bare wire frame with neither tone pattern: it names no class, so no row of the opcode table
  (log 3). Safe. -/
  | noTonePattern (f : Frame)
  deriving DecidableEq, Repr

/-- How a step ends. -/
abbrev Result := Host.Outcome State Fault Refusal

/-- The buffer with every entry 0. -/
def Pcm.zero : Pcm := ⟨List.replicate pcmSize 0, List.length_replicate ..⟩

/-- The machine right after reset: every register 0 (spec/10_state.md R23, spec/70_reset_and_hazards.md R160), and nothing
at the port. -/
def State.reset : State where
  phase := 0
  status := .ok
  frameOut := 0
  pcm := Pcm.zero
  pcmLen := 0
  lkFound := false
  lkFh := 0
  lkFl := 0
  port := []

end Sys2Proof.Machine
end

