-- ==== Sys2Proof/Machine/Flags.lean ====
section
/-!
DEFINITION. The status a command leaves (spec/60_exceptions.md R140): the checksum, the tests of DECODE in their order,
the tests of ENCODE in theirs, and the numeric codes. The block has no other flag than `STATUS` and `LK_FOUND`
(spec/10_state.md R17).
-/

namespace Sys2Proof.Machine

/-- The numeric code of a status, 4 bits (spec/60_exceptions.md R140). -/
def Status.code : Status → BitVec 4
  | .ok => 0
  | .headerMismatch => 1
  | .checksumMismatch => 2
  | .notToneIndicator => 3
  | .unknownToneIndex => 4
  | .indexOutOfRange => 5
  | .gainOutOfRange => 6

/-- The one's complement of the sum modulo 256 of seven bytes (spec/40_frame_codec.md R70). -/
def checksum (b0 b1 b2 b3 b4 b5 b6 : Byte) : Byte := ~~~(b0 + b1 + b2 + b3 + b4 + b5 + b6)

/-- The checksum of the first seven bytes of a frame (spec/40_frame_codec.md R74, step 2). -/
def frameSum (f : Frame) : Byte :=
  checksum (frameByte f 0) (frameByte f 1) (frameByte f 2) (frameByte f 3) (frameByte f 4) (frameByte f 5) (frameByte f 6)

/-- The checksum of a header with bytes 5 and 6 (spec/40_frame_codec.md R72). -/
def headerSum (h : Header) (b5 b6 : Byte) : Byte :=
  checksum (headerByte h 0) (headerByte h 1) (headerByte h 2) (headerByte h 3) (headerByte h 4) b5 b6

/-- The tests of DECODE, the first failure wins; on success the entry of the tone index (spec/40_frame_codec.md R74,
spec/60_exceptions.md R142). -/
def validate (c : Config) (cls : FrameClass) (f : Frame) : Except Status RomEntry :=
  if frameHeader f ≠ headerOf cls then .error .headerMismatch
  else if frameByte f 7 ≠ frameSum f then .error .checksumMismatch
  else if frameIndicator f ≠ 0xF then .error .notToneIndicator
  else match romRead c (frameToneIndex f) with
    | none => .error .unknownToneIndex
    | some e => .ok e

/-- The tests of ENCODE, the index first (spec/40_frame_codec.md R72, spec/60_exceptions.md R143). -/
def encodeCheck (c : Config) (tone gain : Byte) : Status :=
  if tone > c.maxIndex then .indexOutOfRange
  else if gain > 15 then .gainOutOfRange
  else .ok

end Sys2Proof.Machine
end

