-- ==== Sys2Proof/Machine/Ops.lean ====
section
/-!
DEFINITION. The named operations over the registers and the PCM space, the failure of a command (this hardware's only
"exception", spec/60_exceptions.md R145), the host's reads, and taking the next input from the port.
-/

namespace Sys2Proof.Machine

/-! ### The PCM space -/

/-- The list with `f i, f (i+1), …` in its first `n` places. -/
def overwrite (f : Nat → PcmSample) : Nat → Nat → List PcmSample → List PcmSample
  | _, _, [] => []
  | 0, _, xs => xs
  | n + 1, i, _ :: xs => f i :: overwrite f n (i + 1) xs

theorem overwrite_length (f : Nat → PcmSample) : ∀ n i xs, (overwrite f n i xs).length = xs.length
  | _, _, [] => by simp [overwrite]
  | 0, _, _ :: _ => by simp [overwrite]
  | n + 1, i, _ :: xs => by simp [overwrite, overwrite_length f n (i + 1) xs]

/-- `for i in 0 .. n-1: PcmWrite(i, f i)` (spec/00_scope.md R8, spec/20_memory.md R31); offsets from `n` on keep their
value. -/
def Pcm.write (b : Pcm) (n : Nat) (f : Nat → PcmSample) : Pcm :=
  ⟨overwrite f n 0 b.samples, (overwrite_length f n 0 b.samples).trans b.size⟩

/-- `PCM[i]` (spec/20_memory.md R31). -/
def Pcm.read (b : Pcm) (i : Fin pcmSize) : PcmSample := b.samples[i.val]'(b.size.symm ▸ i.isLt)

/-- The command's result, "audioSamples": the first `PCM_LEN` entries (spec/10_state.md R20). -/
def State.audio (s : State) : List PcmSample := s.pcm.samples.take s.pcmLen.toNat

/-! ### The registers -/

/-- `PHASE <- p`. -/
def State.setPhase (s : State) (p : Phase) : State := { s with phase := p }

/-- `STATUS <- r`. -/
def State.setStatus (s : State) (r : Status) : State := { s with status := r }

/-- `FRAME_OUT[63:24] <- h`, the low 24 bits kept (spec/10_state.md R19). -/
def State.setFrameHeader (s : State) (h : Header) : State :=
  { s with frameOut := h ++ s.frameOut.extractLsb' 0 24 }

/-- `FRAME_OUT[23:0] <- {b5, b6, b7}`, the header kept (spec/10_state.md R19). -/
def State.setFrameTail (s : State) (b5 b6 b7 : Byte) : State :=
  { s with frameOut := frameHeader s.frameOut ++ b5 ++ b6 ++ b7 }

/-- `PCM[0..n-1] <- f 0, …, f (n-1)` and `PCM_LEN <- n` (spec/40_frame_codec.md R74). -/
def State.setAudio (s : State) (n : Nat) (f : Nat → PcmSample) : State :=
  { s with pcm := s.pcm.write n f, pcmLen := BitVec.ofNat 9 n }

/-- `LK_FOUND`, `LK_FH`, `LK_FL`, written together (spec/10_state.md R18, spec/41_tone_table_rom.md R93). -/
def State.setLookup (s : State) : Option RomEntry → State
  | some e => { s with lkFound := true, lkFh := e.fh, lkFl := e.fl }
  | none => { s with lkFound := false, lkFh := 0, lkFl := 0 }

/-! ### The failure of a command -/

/-- `fail <Reason>`: `STATUS <- code(Reason)`, and the command ends (spec/00_scope.md R8, spec/60_exceptions.md R145).
No control is transferred, no mode changes, nothing is saved; there is no return from it (R146). -/
def State.fail (s : State) (reason : Status) : State := s.setStatus reason

/-! ### The host's side -/

/-- What the host reads, as an unsigned number of the register's width (spec/10_state.md R13); a read changes nothing
(spec/20_memory.md R36). -/
def hostRead : HostReg → State → Nat
  | .phase, s => s.phase.toNat
  | .status, s => s.status.code.toNat
  | .frameOut, s => s.frameOut.toNat
  | .pcm i, s => (s.pcm.read i).toNat
  | .pcmLen, s => s.pcmLen.toNat
  | .lkFound, s => s.lkFound.toNat
  | .lkFh, s => s.lkFh.toNat
  | .lkFl, s => s.lkFl.toNat

/-- The width in bits of what the host reads (spec/10_state.md R13). -/
def hostWidth : HostReg → Nat
  | .phase => cfg.phaseWidth
  | .status => 4
  | .frameOut => 64
  | .pcm _ => 16
  | .pcmLen => 9
  | .lkFound => 1
  | .lkFh => 18
  | .lkFl => 18

/-- The state after the inputs `rest` are all that the host has still to give. -/
def State.setPort (s : State) (rest : List PortInput) : State := { s with port := rest }

/-- Reset (spec/70_reset_and_hazards.md R160): every register takes its reset value; what the host gives afterwards is
the host's and stays (log 18). -/
def State.applyReset (s : State) : State := State.reset.setPort s.port

/-- The refusal of a word that is no instruction (spec/30_encoding.md R58; log 3). -/
def refusalOf : DecodeError → Refusal
  | .reservedOp op => .reservedOp op
  | .noTonePattern f => .noTonePattern f

/-- Take the next input: nothing pending leaves the block idle, holding its registers (spec/60_exceptions.md R155; log 1);
a reset is applied; a word is decoded and, where it is an instruction, run to completion (spec/10_state.md R11). -/
def takeInput (run : Instr → State → Result) (s : State) : Result :=
  match s.port with
  | [] => .next s
  | .reset :: rest => .next (s.setPort rest).applyReset
  | .word w :: rest =>
    match decode w with
    | .ok i => run i (s.setPort rest)
    | .error e => .refused (refusalOf e)

end Sys2Proof.Machine
end

