-- ==== Sys2Proof/Machine/Sine.lean ====
section
/-!
DEFINITION. The sine in fixed point: integers that are `2 ^ K` times π or a sine, to within a stated error. It holds no
table and no rounding of the spec's; the values only steer `sample` (Machine/Synth.lean), whose result does not depend on
them (log 11).
-/

namespace Sys2Proof.Machine

/-- The sine's period in units of the argument: `θ = 2π k / 800000` (spec/42_dual_tone_synthesizer.md R112). -/
def turn : Nat := 800000

/-- The first `t` terms from index `i` of the series of `scale * arctan (1/d)`, each rounded down; `den` is the
`(2i+1)`-th power of `d` and `d2` its square. -/
def atanInvFix (scale d2 : Nat) : Nat → Nat → Nat → Int
  | 0, _, _ => 0
  | t + 1, i, den => (scale / ((2 * i + 1) * den) : Nat) - atanInvFix scale d2 t (i + 1) (den * d2)

/-- `2 ^ K * π` by Machin's formula. -/
def piFix (K : Nat) : Int :=
  16 * atanInvFix (2 ^ K) 25 (K / 4 + 1) 0 5 - 4 * atanInvFix (2 ^ K) 57121 (K / 4 + 1) 0 239

/-- The first `t` terms from index `i` of the sine's Taylor series, each rounded down: `num / den` is the term of index
`i`, up to its sign. -/
def sinSum (x2 d2 : Nat) : Nat → Nat → Nat → Nat → Int
  | 0, _, _, _ => 0
  | t + 1, i, num, den =>
    (num / den : Nat) - sinSum x2 d2 t (i + 1) (num * x2) (den * (d2 * ((2 * i + 2) * (2 * i + 3))))

/-- `2 ^ K * θ` for the argument `θ = 2π k / 800000`, rounded down. -/
def angleFix (K k : Nat) : Nat := (2 * piFix K * k / turn).toNat

/-- `2 ^ K * sin (2π k / 800000)` for `k` below 800000, to within `sinErr K`. -/
def sinFix (K k : Nat) : Int :=
  sinSum (angleFix K k * angleFix K k) (2 ^ (2 * K)) (K / 4 + 8) 0 (angleFix K k) 1

/-- The error bound of `sinFix`. -/
def sinErr (K : Nat) : Nat := 16 * K

/-- An approximation of `2 ^ K * sin (2π k / 800000)` and its error bound, which is 0 at the four points where the sine is
0, 1 or -1 (spec/42_dual_tone_synthesizer.md R117). -/
def sinBall (K k : Nat) : Int × Nat :=
  if k = 0 ∨ k = 400000 then (0, 0)
  else if k = 200000 then (2 ^ K, 0)
  else if k = 600000 then (-2 ^ K, 0)
  else (sinFix K k, sinErr K)

/-- The arguments whose sine is `sin 54°`. -/
def isSin54 (k : Nat) : Bool := k == 120000 || k == 280000

/-- The arguments whose sine is `sin 18°`. -/
def isSin18 (k : Nat) : Bool := k == 40000 || k == 360000

/-- The argument half a turn away. -/
def halfTurn (k : Nat) : Nat := (k + 400000) % turn

/-- Whether the pair's sines are `sin 54°` and `-sin 18°`, whose sum is `1/2`. -/
def sumIsHalf (kH kL : Nat) : Bool :=
  isSin54 kH && isSin18 (halfTurn kL) || isSin18 (halfTurn kH) && isSin54 kL

/-- An approximation of `2 ^ K` times the sum of the two sines and its error bound; exact where the sum is `±1/2`. -/
def sumBall (K kH kL : Nat) : Int × Nat :=
  if sumIsHalf kH kL then (2 ^ (K - 1), 0)
  else if sumIsHalf (halfTurn kH) (halfTurn kL) then (-2 ^ (K - 1), 0)
  else ((sinBall K kH).1 + (sinBall K kL).1, (sinBall K kH).2 + (sinBall K kL).2)

end Sys2Proof.Machine
end

