-- ==== Sys2Proof/Machine/Synth.lean ====
section
/-!
DEFINITION. The dual-tone synthesizer (spec/42_dual_tone_synthesizer.md): gain, `Sample` and `Synth`. `sample` computes
the truncated real value of R114 exactly: it bounds the real value from both sides in exact integers and doubles the
precision until the two bounds truncate to the same integer (log 11).
-/

namespace Sys2Proof.Machine

/-- The clamp level 32760 (spec/00_scope.md R4). -/
def clampLevel : Int := 32760

/-- Four times `gainPercent(g) = (g + 1) * 25 / 4` (spec/42_dual_tone_synthesizer.md R110). -/
def gainQuarters (g : GainStep) : Nat := 25 * (g.toNat + 1)

/-- The rational `num / den` clamped and then rounded toward zero (spec/42_dual_tone_synthesizer.md R114). -/
def clampTrunc (num den : Int) : Int := (max (-clampLevel * den) (min num (clampLevel * den))).tdiv den

/-- A real sample value (spec/42_dual_tone_synthesizer.md R113) whose sum of sines is `a / 2 ^ K`, clamped and rounded:
`gainPercent * (a / 2 ^ K) / 2 * OUTPUT_SCALE`. -/
def roundAt (c : Config) (g : GainStep) (K : Nat) (a : Int) : Int :=
  clampTrunc (gainQuarters g * c.scaleNum * a) (8 * c.scaleDen * 2 ^ K)

/-- `Sample` for the reduced arguments: both ends of the enclosure rounded, at doubling precision until they agree; where
the last precision leaves them apart, the value is the integer between them. -/
def sampleAt (c : Config) (g : GainStep) (kH kL : Nat) : Nat → Nat → Int
  | fuel, K =>
    let ball := sumBall K kH kL
    let lo := roundAt c g K (ball.1 - ball.2)
    let hi := roundAt c g K (ball.1 + ball.2)
    if lo = hi then lo
    else match fuel with
      | 0 => if lo < 0 then lo else hi
      | fuel + 1 => sampleAt c g kH kL fuel (2 * K)

/-- The argument reduced to one turn, `k = (p * Fc) mod 800000`; the product is exact
(spec/42_dual_tone_synthesizer.md R112, spec/43_phase_control.md R134). -/
def reduceArg (p : Nat) (f : CentiHertz) : Nat := p * f.toNat % turn

/-- The first precision in bits, and how often it may double. -/
def firstPrecision : Nat := 64
def doublings : Nat := 18

/-- `Sample(FH, FL, g, p)`; the absolute phase `p` is an unsigned integer (spec/42_dual_tone_synthesizer.md R112, R114). -/
def sample (c : Config) (fh fl : CentiHertz) (g : GainStep) (p : Nat) : PcmSample :=
  BitVec.ofInt 16 (sampleAt c g (reduceArg p fh) (reduceArg p fl) doublings firstPrecision)

/-- The phase `n` samples after `p`: the sum modulo `2 ^ PHASE_W` (spec/10_state.md R15). -/
def advance (c : Config) (p n : Nat) : Nat := (p + n) % 2 ^ c.phaseWidth

/-- Sample `i` of `Synth(FH, FL, g, p0, n)`: the absolute phase is `(p0 + i) mod 2^PHASE_W`
(spec/42_dual_tone_synthesizer.md R115). -/
def synthSample (c : Config) (e : RomEntry) (g : GainStep) (p0 i : Nat) : PcmSample :=
  sample c e.fh e.fl g (advance c p0 i)

/-- `Synth(FH, FL, g, p0, n)`: the samples and the new phase (spec/42_dual_tone_synthesizer.md R115). -/
def synth (c : Config) (e : RomEntry) (g : GainStep) (p0 n : Nat) : List PcmSample × Nat :=
  ((List.range n).map (synthSample c e g p0), advance c p0 n)

end Sys2Proof.Machine
end

