-- ==== Sys2Proof/Machine/Codec.lean ====
section
/-!
DEFINITION. The frame codec: ENCODE and DECODE (spec/40_frame_codec.md), and the two wire-frame rows, which are the DECODE
of their class.
-/

namespace Sys2Proof.Machine

/-- ENCODE: the header is always written; on an error bytes 5 to 7 keep their value and `STATUS` says which; otherwise
the three bytes are built, the checksum last (spec/40_frame_codec.md R72). -/
def encodeFrame (c : Config) (cls : FrameClass) (tone gain : Byte) (s : State) : State :=
  match encodeCheck c tone gain with
  | .ok =>
    ((s.setFrameHeader (headerOf cls)).setFrameTail (gainByte gain) tone
      (headerSum (headerOf cls) (gainByte gain) tone)).setStatus .ok
  | reason => (s.setFrameHeader (headerOf cls)).fail reason

/-- DECODE: a failure writes zeros and the reason and leaves `PHASE`; a success writes the samples that start at `PHASE`,
advances it by their number and writes `OK`; both write `PCM_LEN` (spec/40_frame_codec.md R74). -/
def decodeFrame (c : Config) (cls : FrameClass) (f : Frame) (s : State) : State :=
  match validate c cls f with
  | .error reason => (s.setAudio (sampleCount cls) fun _ => 0).fail reason
  | .ok e =>
    ((s.setAudio (sampleCount cls) (synthSample c e (frameGainStep f) s.phase.toNat)).setPhase
      (BitVec.ofNat _ (advance c s.phase.toNat (sampleCount cls)))).setStatus .ok

/-- ENCODE (spec/40_frame_codec.md R72). -/
def execEncode (cls : FrameClass) (tone gain : Byte) (s : State) : Result := .next (encodeFrame cfg cls tone gain s)

/-- DECODE (spec/40_frame_codec.md R74). -/
def execDecode (cls : FrameClass) (f : Frame) (s : State) : Result := .next (decodeFrame cfg cls f s)

/-- A wire frame with the class-"3200" pattern: its DECODE as class "3200" (spec/30_encoding.md R52 and the row's note
"semantics when decoded: 40_frame_codec.md rule R74"; log 2). -/
def execTone3200 (gainStep : GainStep) (toneIndex checksum : Byte) (s : State) : Result :=
  .next (decodeFrame cfg .c3200 (toneFrame .c3200 gainStep toneIndex checksum) s)

/-- A wire frame with the class-"1600" pattern: its DECODE as class "1600" (spec/30_encoding.md R53; log 2). -/
def execTone1600 (gainStep : GainStep) (toneIndex checksum : Byte) (s : State) : Result :=
  .next (decodeFrame cfg .c1600 (toneFrame .c1600 gainStep toneIndex checksum) s)

end Sys2Proof.Machine
end

