-- ==== Sys2Proof/Machine/Lookup.lean ====
section
/-!
DEFINITION. LOOKUP, the diagnostic read port of the tone table (spec/41_tone_table_rom.md R93). It cannot fail: "not
found" is a result.
-/

namespace Sys2Proof.Machine

/-- LOOKUP: the entry of `tone`, or not found with both frequencies 0 (spec/41_tone_table_rom.md R93). -/
def execLookup (tone : Byte) (s : State) : Result := .next (s.setLookup (romRead cfg tone))

end Sys2Proof.Machine
end

