-- ==== Sys2Proof/Machine/PhaseControl.lean ====
section
/-!
DEFINITION. The commands of the phase accumulator: NOP, INIT, LDPHASE (spec/43_phase_control.md). None can fail.
-/

namespace Sys2Proof.Machine

/-- NOP: no register is written (spec/43_phase_control.md R130). -/
def execNop (s : State) : Result := .next s

/-- INIT: `PHASE <- 0` and nothing else (spec/43_phase_control.md R131). -/
def execInit (s : State) : Result := .next (s.setPhase 0)

/-- LDPHASE: `PHASE <- p`, of which `PHASE` holds `PHASE_W` bits, and nothing else (spec/43_phase_control.md R132). -/
def execLdphase (p : PhaseOperand) (s : State) : Result := .next (s.setPhase (BitVec.ofNat _ p.toNat))

end Sys2Proof.Machine
end

