-- ==== Sys2Proof/Machine/Dispatch.lean ====
section
/-!
DEFINITION. The dispatch of instructions to their meanings, one arm per constructor of Instr.
-/

namespace Sys2Proof.Machine

def exec (i : Instr) (s : State) : Host.Outcome State Fault Refusal :=
  match i with
  | .nop => Sys2Proof.Machine.execNop s
  | .init => Sys2Proof.Machine.execInit s
  | .ldphase p => Sys2Proof.Machine.execLdphase p s
  | .encode cls tone gain => Sys2Proof.Machine.execEncode cls tone gain s
  | .decode cls f => Sys2Proof.Machine.execDecode cls f s
  | .lookup tone => Sys2Proof.Machine.execLookup tone s
  | .tone3200 g t k => Sys2Proof.Machine.execTone3200 g t k s
  | .tone1600 g t k => Sys2Proof.Machine.execTone1600 g t k s

end Sys2Proof.Machine
end

