-- ==== Sys2Proof/Machine/Step.lean ====
section
/-!
DEFINITION. One step of the block: the next input of the host is taken and run to completion (spec/10_state.md R11,
spec/20_memory.md R40); and how a word comes to be that next input.
-/

namespace Sys2Proof.Machine

/-- One step. -/
def step (s : State) : Host.Outcome State Fault Refusal := takeInput exec s

/-- The state in which the host gives, before all else it has to give, the word of `nbits` bits and value `w`: this is how
a command comes to the block, which loads no program (log 1). -/
def State.withFetchWord (s : State) (nbits w : Nat) : State := s.setPort (.word (tableWord nbits w) :: s.port)

end Sys2Proof.Machine
end

