-- ==== Sys2Proof/Machine/Run.lean ====
section
/-!
DEFINITION. Runs: a sequence of commands given to one block in issue order (spec/70_reset_and_hazards.md R172), and several
instances side by side (spec/20_memory.md R44).
-/

namespace Sys2Proof.Machine

/-- The commands of a list, one after the other; a refusal or a fault ends the run. -/
def runAll : List Instr → State → Result
  | [], s => .next s
  | i :: is, s =>
    match exec i s with
    | .next t => runAll is t
    | .fault r => .fault r
    | .refused r => .refused r

/-- One step of instance `k` among several; an instance owns its state and shares nothing but the constant ROM
(spec/20_memory.md R44, spec/60_exceptions.md R152; log 17). With no instance `k`, nothing happens. -/
def stepInstance : Nat → List State → Host.Outcome (List State) Fault Refusal
  | _, [] => .next []
  | 0, s :: others =>
    match step s with
    | .next t => .next (t :: others)
    | .fault r => .fault r
    | .refused r => .refused r
  | k + 1, s :: others =>
    match stepInstance k others with
    | .next ts => .next (s :: ts)
    | .fault r => .fault r
    | .refused r => .refused r

end Sys2Proof.Machine
end

