-- ==== Sys2Proof/Reference.lean ====
section
/-!
DEFINITION. The synthesizer's reference in real arithmetic, as spec/42_dual_tone_synthesizer.md writes it (R110 to R114,
R116). Nothing here runs: the machine's `sample` is stated to be equal to `refSample`.
-/

namespace Sys2Proof

/-- `gainPercent(g) = (g + 1) * 6.25` (spec/42_dual_tone_synthesizer.md R110). -/
noncomputable def gainPercent (g : GainStep) : ℝ := ((g.toNat : ℝ) + 1) * 6.25

/-- `OUTPUT_SCALE` (spec/42_dual_tone_synthesizer.md R111). -/
noncomputable def outputScale (c : Config) : ℝ := (c.scaleNum : ℝ) / c.scaleDen

/-- `AMP(g) = gainPercent(g) * OUTPUT_SCALE` (spec/42_dual_tone_synthesizer.md R111). -/
noncomputable def amplitude (c : Config) (g : GainStep) : ℝ := gainPercent g * outputScale c

/-- The sine argument `θ(p, Fc) = 2π p Fc / 800000` (spec/42_dual_tone_synthesizer.md R112). -/
noncomputable def sineArg (p : Nat) (f : CentiHertz) : ℝ := 2 * Real.pi * p * f.toNat / 800000

/-- The real value of a sample (spec/42_dual_tone_synthesizer.md R113). -/
noncomputable def realSample (c : Config) (fh fl : CentiHertz) (g : GainStep) (p : Nat) : ℝ :=
  gainPercent g * (Real.sin (sineArg p fh) / 2 + Real.sin (sineArg p fl) / 2) * outputScale c

/-- The clamp to ±32760, still a real number (spec/42_dual_tone_synthesizer.md R114). -/
noncomputable def clampReal (v : ℝ) : ℝ := min (max v (-32760)) 32760

/-- Rounding toward zero (spec/42_dual_tone_synthesizer.md R114). -/
noncomputable def truncReal (w : ℝ) : Int := if 0 ≤ w then ⌊w⌋ else ⌈w⌉

/-- The reference `Sample` (spec/42_dual_tone_synthesizer.md R114). -/
noncomputable def refSample (c : Config) (fh fl : CentiHertz) (g : GainStep) (p : Nat) : Int :=
  truncReal (clampReal (realSample c fh fl g p))

/-- The reduced arguments `k` at which the sine is known exactly, each with its sine (spec/42_dual_tone_synthesizer.md
R117). -/
def exactSines : List (Nat × Int) := [(0, 0), (200000, 1), (400000, 0), (600000, -1)]

/-- A hardware's sample function conforms when, for every ROM entry, it stays within `SAMPLE_TOL` of the reference and
within the clamp (spec/42_dual_tone_synthesizer.md R116). -/
def Conforms (c : Config) (hw : CentiHertz → CentiHertz → GainStep → Nat → PcmSample) : Prop :=
  ∀ idx e, Machine.romRead c idx = some e → ∀ g, ∀ p < 2 ^ c.phaseWidth,
    |(hw e.fh e.fl g p).toInt - refSample c e.fh e.fl g p| ≤ c.sampleTol ∧
    -32760 ≤ (hw e.fh e.fl g p).toInt ∧ (hw e.fh e.fl g p).toInt ≤ 32760

end Sys2Proof
end

