-- ==== Sys2Proof/WellFormed.lean ====
section
/-!
DEFINITION. Which instructions are well-formed. Every field of a command has a type that holds exactly the values its
bits can have, so each command is; a term of a wire-frame row is a tone frame only if it meets the conditions that the
opcode table adds to the row's pattern (spec/30_encoding.md R51: I2 and I4; I1 and I3 are the pattern).
-/

namespace Sys2Proof

/-- The checksum of a tone frame's fields is right (spec/30_encoding.md R51, I2). -/
def checksumFits (cls : FrameClass) (gainStep : GainStep) (toneIndex checksum : Byte) : Bool :=
  checksum == Machine.frameSum (toneFrame cls gainStep toneIndex checksum)

/-- The tone index is mapped (spec/30_encoding.md R51, I4). -/
def indexFits (c : Config) (toneIndex : Byte) : Bool := decide (toneIndex ≤ c.maxIndex)

/-- Well-formed instructions. The decoder and the machine take ill-formed ones too: DECODE is total on frames
(spec/30_encoding.md R59), and such a frame is a failure with a code, not a fault. -/
def Instr.wellFormed (c : Config) : Instr → Bool
  | .nop | .init | .ldphase _ | .encode .. | .decode .. | .lookup _ => true
  | .tone3200 g t k => checksumFits .c3200 g t k && indexFits c t
  | .tone1600 g t k => checksumFits .c1600 g t k && indexFits c t

end Sys2Proof
end

