-- ==== Sys2Proof/Safety.lean ====
section
/-!
DEFINITION. What counts as a good state and a good run of the block, in the terms the statements use: the state invariant,
the inputs a host may give, playable frames, and the phase law.
-/

namespace Sys2Proof

open Machine

/-- The frame ENCODE builds for a class, gain step and tone index: the tone pattern with the right checksum
(spec/30_encoding.md R51, spec/40_frame_codec.md R72). -/
def playableFrame (cls : FrameClass) (g : GainStep) (t : Byte) : Frame :=
  toneFrame cls g t (headerSum (headerOf cls) ((0xF : GainStep) ++ g) t)

/-- A frame with any fifth and sixth byte and the right checksum (spec/40_frame_codec.md R79). -/
def checkedFrame (cls : FrameClass) (b5 b6 : Byte) : Frame :=
  headerOf cls ++ b5 ++ b6 ++ headerSum (headerOf cls) b5 b6

/-- `PCM_LEN` holds 0, 160 or 320 (spec/10_state.md R13). -/
def LegalLength (s : State) : Prop := s.pcmLen = 0 ∨ s.pcmLen = 160 ∨ s.pcmLen = 320

/-- Every entry of `PCM` lies in [-32760, 32760] (spec/10_state.md R20), and all are 0 as long as no DECODE has run. -/
def LegalAudio (s : State) : Prop :=
  (∀ i, -32760 ≤ (s.pcm.read i).toInt ∧ (s.pcm.read i).toInt ≤ 32760) ∧
  (s.pcmLen = 0 → ∀ i, s.pcm.read i = 0)

/-- The lookup registers hold an entry of the table, or zeros when not found (spec/10_state.md R13, R18). -/
def LegalLookup (s : State) : Prop :=
  (s.lkFound = true → ∃ idx, romRead cfg idx = some ⟨s.lkFh, s.lkFl⟩) ∧
  (s.lkFound = false → s.lkFh = 0 ∧ s.lkFl = 0)

/-- `FRAME_OUT` is 0 or has the header of a class, and its bytes 5 to 7 are 0 or those of a frame that ENCODE built, for
the same class or the other (spec/10_state.md R19, spec/40_frame_codec.md R73). -/
def LegalFrameOut (s : State) : Prop :=
  (s.frameOut = 0 ∨ ∃ cls, frameHeader s.frameOut = headerOf cls) ∧
  (s.frameOut.extractLsb' 0 24 = 0 ∨
    ∃ cls g t, t ≤ cfg.maxIndex ∧ s.frameOut.extractLsb' 0 24 = (playableFrame cls g t).extractLsb' 0 24)

/-- The invariant of the block's registers. -/
def Inv (s : State) : Prop := LegalLength s ∧ LegalAudio s ∧ LegalLookup s ∧ LegalFrameOut s

/-- An input the host may give: a reset, or a word that is an instruction (spec/70_reset_and_hazards.md R172). -/
def PortInput.allowed : PortInput → Prop
  | .reset => True
  | .word w => ∃ i, decode w = .ok i

/-- A tone frame of a class: I1, I2 and I3 hold (spec/30_encoding.md R51). -/
def ToneFrame (cls : FrameClass) (f : Frame) : Prop :=
  frameHeader f = headerOf cls ∧ frameByte f 7 = frameSum f ∧ frameIndicator f = 0xF

/-- A tone frame that DECODE of its class plays: I4 holds too (spec/30_encoding.md R51). -/
def Playable (cls : FrameClass) (f : Frame) : Prop := ToneFrame cls f ∧ frameToneIndex f ≤ cfg.maxIndex

/-- The frame an instruction decodes, and the class it decodes it as. -/
def decodedFrame : Instr → Option (FrameClass × Frame)
  | .decode cls f => some (cls, f)
  | .tone3200 g t k => some (.c3200, toneFrame .c3200 g t k)
  | .tone1600 g t k => some (.c1600, toneFrame .c1600 g t k)
  | .nop | .init | .ldphase _ | .encode .. | .lookup _ => none

/-- The samples by which an instruction advances the phase: those of a frame that is played
(spec/43_phase_control.md R133). -/
def samplesOf (i : Instr) : Nat :=
  match decodedFrame i with
  | some (cls, f) => if (validate cfg cls f).toBool then sampleCount cls else 0
  | none => 0

/-- The phase law: `PHASE` after one command (spec/43_phase_control.md R133). -/
def phaseLaw (p : Phase) : Instr → Phase
  | .init => 0
  | .ldphase q => BitVec.ofNat _ q.toNat
  | .nop | .encode .. | .lookup _ => p
  | .decode cls f => p + BitVec.ofNat _ (samplesOf (.decode cls f))
  | .tone3200 g t k => p + BitVec.ofNat _ (samplesOf (.tone3200 g t k))
  | .tone1600 g t k => p + BitVec.ofNat _ (samplesOf (.tone1600 g t k))

end Sys2Proof
end

