-- ==== Sys2Proof/Certificates/Slice0/Obligations.lean ====
section
/-!
DEFINITION. The statements for the provers, each over the machine of this package. Numbers in status positions are the
codes of spec/60_exceptions.md R140; `0x74` is `MAX_INDEX` (log 6).
-/

open Sys2Proof Sys2Proof.Machine

/-! ### Reset and the state -/

/-- spec/10_state.md R23: every register the host can read is 0 after reset. -/
def Obligations.ResetValues : Prop := ∀ r, hostRead r State.reset = 0

/-- spec/70_reset_and_hazards.md, section 1: a reset given between commands, whatever the block holds, leaves the reset
values, and takes nothing from what the host gives afterwards (the port and the placing of resets in it are the model's
choice, log 1 and log 18). -/
def Obligations.ResetInputClearsEveryRegister : Prop :=
  ∀ s rest, s.port = .reset :: rest → step s = .next (State.reset.setPort rest)

/-- spec/10_state.md, sections 1 and 2: no hidden state. Every register has its width of the register table, and two states
that read the same in every register, with the same inputs still to come (log 1), are the same state. -/
def Obligations.HostReadsDetermineTheState : Prop :=
  (∀ r s, hostRead r s < 2 ^ hostWidth r) ∧
  ∀ s t : State, (∀ r, hostRead r s = hostRead r t) → s.port = t.port → s = t

/-- The invariant of the registers (`Inv`, Safety.lean) holds at reset. -/
def Obligations.InvariantAtReset : Prop := Sys2Proof.Inv State.reset

/-- Every step keeps the invariant of the registers, whatever input it takes: legal `PCM_LEN`, samples within the clamp,
lookup registers that hold a table entry or zeros, a `FRAME_OUT` made of a header and an encoder's three bytes. -/
def Obligations.StepKeepsInvariant : Prop :=
  ∀ s t, Sys2Proof.Inv s → step s = .next t → Sys2Proof.Inv t

/-- spec/10_state.md, sections 2, 4 and 5 (the table's "written by" column is complete): which commands write which
register. -/
def Obligations.OnlyListedCommandsWrite : Prop :=
  ∀ i s t, exec i s = .next t →
    ((∀ tone, i ≠ .lookup tone) → t.lkFound = s.lkFound ∧ t.lkFh = s.lkFh ∧ t.lkFl = s.lkFl) ∧
    ((∀ cls tone gain, i ≠ .encode cls tone gain) → t.frameOut = s.frameOut ∧
      (decodedFrame i = none → t.status = s.status)) ∧
    (decodedFrame i = none → t.pcm = s.pcm ∧ t.pcmLen = s.pcmLen ∧
      (i ≠ .init → (∀ p, i ≠ .ldphase p) → t.phase = s.phase)) ∧
    (∀ cls f, decodedFrame i = some (cls, f) → t.status.code ≠ 0 → t.phase = s.phase) ∧
    t.port = s.port

/-- spec/10_state.md R21: no command takes a result register as an input. From any two states, a command leaves the same
values in the result registers it writes; only bytes 5 to 7 of `FRAME_OUT` after a failed ENCODE are the old ones, and only
DECODE's samples and the new phase depend on a register, the old phase. -/
def Obligations.ResultRegistersAreNoInputs : Prop :=
  ∀ i s s' t t', exec i s = .next t → exec i s' = .next t' →
    (s.phase = s'.phase → t.phase = t'.phase) ∧
    (∀ tone, i = .lookup tone → t.lkFound = t'.lkFound ∧ t.lkFh = t'.lkFh ∧ t.lkFl = t'.lkFl) ∧
    (∀ cls tone gain, i = .encode cls tone gain → t.status = t'.status ∧ frameHeader t.frameOut = frameHeader t'.frameOut ∧
      (t.status.code = 0 → t.frameOut = t'.frameOut) ∧
      (t.status.code ≠ 0 → t.frameOut.extractLsb' 0 24 = s.frameOut.extractLsb' 0 24)) ∧
    (∀ cls f, decodedFrame i = some (cls, f) → t.status = t'.status ∧ t.pcmLen = t'.pcmLen ∧
      (s.phase = s'.phase → t.audio = t'.audio))

/-! ### The phase commands and LOOKUP -/

/-- spec/43_phase_control.md R130, R131, R132: NOP writes nothing, INIT writes 0 to `PHASE` and LDPHASE its operand, and
nothing else; a word with their `op` is that command whatever its other fields are. -/
def Obligations.PhaseCommandsWriteOnlyPhase : Prop :=
  (∀ s, exec .nop s = .next s) ∧
  (∀ s, exec .init s = .next { s with phase := 0 }) ∧
  (∀ p s, ∃ q : Phase, q.toNat = p.toNat ∧ exec (.ldphase p) s = .next { s with phase := q }) ∧
  (∀ w, cmdOp w = 0 → decodeCommand w = .ok .nop) ∧
  (∀ w, cmdOp w = 1 → decodeCommand w = .ok .init) ∧
  (∀ w, cmdOp w = 2 → decodeCommand w = .ok (.ldphase (w.extractLsb' 0 32)))

/-- spec/41_tone_table_rom.md R93: LOOKUP writes the three lookup registers, from the table or zeros, and nothing else. -/
def Obligations.LookupWritesTheEntry : Prop :=
  (∀ w, cmdOp w = 5 → decodeCommand w = .ok (.lookup (w.extractLsb' 72 8))) ∧
  ∀ tone s, exec (.lookup tone) s = .next (match romRead cfg tone with
    | some e => { s with lkFound := true, lkFh := e.fh, lkFl := e.fl }
    | none => { s with lkFound := false, lkFh := 0, lkFl := 0 })

/-- spec/43_phase_control.md, the phase law (derived there): over any sequence of commands the phase is the phase law folded over them, and the
sequence completes. -/
def Obligations.PhaseLawOverRuns : Prop :=
  ∀ (is : List Instr) (s : State), ∃ t, runAll is s = .next t ∧ t.phase = is.foldl phaseLaw s.phase

/-- spec/43_phase_control.md, the phase law (derived there): after a sequence without INIT and LDPHASE the phase has grown by 160 for every played
class-"3200" frame and 320 for every played class-"1600" frame, modulo 2^32, whatever else the sequence holds. -/
def Obligations.PhaseCountsPlayedFrames : Prop :=
  ∀ (is : List Instr) (s t : State), (∀ i ∈ is, i ≠ .init ∧ ∀ p, i ≠ .ldphase p) → runAll is s = .next t →
    t.phase.toNat = (s.phase.toNat + 160 * (is.countP fun i => samplesOf i == 160)
      + 320 * (is.countP fun i => samplesOf i == 320)) % 2 ^ 32

/-- spec/30_encoding.md, section 6: `DECODEP class, frame, phaseIn` is the source's `decode` with an explicit phase. -/
def Obligations.DecodepSuppliesThePhase : Prop :=
  ∀ cls f p s, runAll (decodep cls f p) s = exec (.decode cls f) { s with phase := BitVec.ofNat _ p.toNat }

/-! ### The tone table -/

/-- spec/41_tone_table_rom.md R95, R96, R97: the contents of the table. The DTMF bank is row-major over the keypad,
the Knox bank the DTMF bank reversed (a placeholder, decision D4; log 7), a note stands in both slots and is the nearest
centi-hertz to equal temperament with A4 = 440 Hz at offset 57, and no index beyond `0x74` is mapped. -/
def Obligations.TableContents : Prop :=
  (∀ k < 16, ∃ e, romRead cfg (BitVec.ofNat 8 k) = some e ∧
    e.fh.toNat = 100 * [1209, 1336, 1477, 1633].getD (k % 4) 0 ∧ e.fl.toNat = 100 * [697, 770, 852, 941].getD (k / 4) 0) ∧
  (∀ k < 16, romRead cfg (BitVec.ofNat 8 (0x10 + k)) = romRead cfg (BitVec.ofNat 8 (15 - k))) ∧
  (∀ n ≤ 84, ∃ f : CentiHertz, romRead cfg (BitVec.ofNat 8 (0x20 + n)) = some ⟨f, f⟩ ∧
    |(f.toNat : ℝ) - 100 * 440 * (2 : ℝ) ^ (((n : ℝ) - 57) / 12)| < 1 / 2) ∧
  (∀ idx : Byte, 0x74 < idx.toNat → romRead cfg idx = none)

/-- spec/41_tone_table_rom.md, section 6 (laws of the table, derived there): every frequency is positive and below half the
sample rate, the high slot is not below the low one, and equal slots mark the note bank. -/
def Obligations.TableLaws : Prop :=
  ∀ idx e, romRead cfg idx = some e →
    0 < e.fl.toNat ∧ e.fl.toNat ≤ e.fh.toNat ∧ e.fh.toNat < 400000 ∧ (e.fh = e.fl ↔ 0x20 ≤ idx.toNat) ∧
    (idx.toNat < 0x20 → 100 ∣ e.fh.toNat ∧ 100 ∣ e.fl.toNat)

/-- spec/41_tone_table_rom.md, section 6 ("`MAX_INDEX` as a parameter"; log 6): a lower bound takes the entries above it out
of the table and out of ENCODE's range, and changes nothing else: an ENCODE within it, a sample, a synthesis and a DECODE are
what they were, but that a DECODE which succeeded on an index above it fails with `UnknownToneIndex`. -/
def Obligations.LowerBoundOnlyCutsTheTable : Prop :=
  ∀ (m : Byte) (c : Config), 0x1F ≤ m.toNat → m.toNat ≤ 0x74 → c = { cfg with maxIndex := m } →
    (∀ idx, romRead c idx = if idx.toNat ≤ m.toNat then romRead cfg idx else none) ∧
    (∀ tone gain, encodeCheck c tone gain =
      (if m.toNat < tone.toNat then .indexOutOfRange else if 15 < gain.toNat then .gainOutOfRange else .ok)) ∧
    (∀ cls (tone gain : Byte) s, tone.toNat ≤ m.toNat → encodeFrame c cls tone gain s = encodeFrame cfg cls tone gain s) ∧
    (∀ fh fl g p, sample c fh fl g p = sample cfg fh fl g p) ∧
    (∀ e g p0 n, synth c e g p0 n = synth cfg e g p0 n) ∧
    (∀ cls f s, decodeFrame c cls f s =
      if (decodeFrame cfg cls f s).status = .ok ∧ m.toNat < (frameToneIndex f).toNat
      then (s.setAudio (sampleCount cls) fun _ => 0).fail .unknownToneIndex
      else decodeFrame cfg cls f s)

/-! ### Frames and the codec -/

/-- spec/40_frame_codec.md, section 1: the checksum as a number, and (derived there) as the test that all eight bytes sum to
255 modulo 256. -/
def Obligations.ChecksumIsOnesComplementOfSum : Prop :=
  ∀ b0 b1 b2 b3 b4 b5 b6 : Byte,
    (checksum b0 b1 b2 b3 b4 b5 b6).toNat =
      255 - (b0.toNat + b1.toNat + b2.toNat + b3.toNat + b4.toNat + b5.toNat + b6.toNat) % 256 ∧
    ∀ b7 : Byte, b7 = checksum b0 b1 b2 b3 b4 b5 b6 ↔
      (b0.toNat + b1.toNat + b2.toNat + b3.toNat + b4.toNat + b5.toNat + b6.toNat + b7.toNat) % 256 = 255

/-- spec/20_memory.md R33: a frame is exactly 8 bytes, byte 0 the most significant, in a byte the high nibble
is bits 7:4; the header bytes of the classes, which are all that is used of the silence constants. -/
def Obligations.FramesAreBigEndian : Prop :=
  (∀ b0 b1 b2 b3 b4 b5 b6 b7 : Byte, ∃ f, frameOfBytes [b0, b1, b2, b3, b4, b5, b6, b7] = some f ∧
    (List.range 8).map (frameByte f) = [b0, b1, b2, b3, b4, b5, b6, b7] ∧
    f.toNat = [b0, b1, b2, b3, b4, b5, b6, b7].foldl (fun n b => 256 * n + b.toNat) 0 ∧
    (frameIndicator f).toNat = b5.toNat / 16 ∧ (frameGainStep f).toNat = b5.toNat % 16) ∧
  (∀ bs : List Byte, bs.length ≠ 8 → frameOfBytes bs = none) ∧
  (∀ cls, (silence cls).toNat / 2 ^ 24 = (headerOf cls).toNat) ∧
  (List.range 5).map (headerByte (headerOf .c3200)) = [0x01, 0x00, 0x09, 0x43, 0x9C] ∧
  (List.range 5).map (headerByte (headerOf .c1600)) = [0x01, 0x00, 0x04, 0x00, 0x25]

/-- spec/40_frame_codec.md R72, spec/60_exceptions.md R143: ENCODE, on every operand; and where a word holds its operands. -/
def Obligations.EncodeResult : Prop :=
  (∀ w, cmdOp w = 3 → decodeCommand w =
    .ok (.encode (if w.getLsbD 80 then .c1600 else .c3200) (w.extractLsb' 72 8) (w.extractLsb' 64 8))) ∧
  ∀ cls tone gain s, ∃ t, exec (.encode cls tone gain) s = .next t ∧
    t.status.code = (if tone.toNat > 0x74 then 5 else if gain.toNat > 15 then 6 else 0) ∧
    t.frameOut = headerOf cls ++ (if tone.toNat > 0x74 ∨ gain.toNat > 15 then s.frameOut.extractLsb' 0 24
      else (0xF0 ||| gain) ++ tone ++ checksum ((headerOf cls).extractLsb' 32 8) ((headerOf cls).extractLsb' 24 8)
        ((headerOf cls).extractLsb' 16 8) ((headerOf cls).extractLsb' 8 8) ((headerOf cls).extractLsb' 0 8)
        (0xF0 ||| gain) tone) ∧
    t.phase = s.phase ∧ t.pcm = s.pcm ∧ t.pcmLen = s.pcmLen ∧ t.lkFound = s.lkFound ∧ t.lkFh = s.lkFh ∧
    t.lkFl = s.lkFl ∧ t.port = s.port

/-- spec/40_frame_codec.md R74, R75, spec/60_exceptions.md R142: where a word holds DECODE's operands, and its effect on every
class, frame and state: the status by
the first failing test, `PCM_LEN` by the class, the samples or zeros below it and the old entries from there on, the phase
advanced only on success, and everything else unchanged. -/
def Obligations.DecodeResult : Prop :=
  (∀ w, cmdOp w = 4 → decodeCommand w =
    .ok (.decode (if w.getLsbD 80 then .c1600 else .c3200) (w.extractLsb' 0 64))) ∧
  ∀ (cls : FrameClass) (f : Frame) (s : State) (n : Nat), n = (match cls with | .c3200 => 160 | .c1600 => 320) →
    ∃ t, exec (.decode cls f) s = .next t ∧
      t.status.code = (if f.extractLsb' 24 40 ≠ headerOf cls then 1
        else if f.extractLsb' 0 8 ≠ checksum (f.extractLsb' 56 8) (f.extractLsb' 48 8) (f.extractLsb' 40 8)
          (f.extractLsb' 32 8) (f.extractLsb' 24 8) (f.extractLsb' 16 8) (f.extractLsb' 8 8) then 2
        else if f.extractLsb' 20 4 ≠ 0xF then 3
        else if romRead cfg (f.extractLsb' 8 8) = none then 4
        else 0) ∧
      t.pcmLen.toNat = n ∧
      t.phase.toNat = (if t.status.code = 0 then (s.phase.toNat + n) % 2 ^ 32 else s.phase.toNat) ∧
      (∀ i, n ≤ i.val → t.pcm.read i = s.pcm.read i) ∧
      (t.status.code ≠ 0 → ∀ i, i.val < n → t.pcm.read i = 0) ∧
      (t.status.code = 0 → ∃ e, romRead cfg (f.extractLsb' 8 8) = some e ∧ ∀ i, i.val < n →
        t.pcm.read i = sample cfg e.fh e.fl (f.extractLsb' 16 4) ((s.phase.toNat + i.val) % 2 ^ 32)) ∧
      t.frameOut = s.frameOut ∧ t.lkFound = s.lkFound ∧ t.lkFh = s.lkFh ∧ t.lkFl = s.lkFl ∧ t.port = s.port

/-- spec/30_encoding.md R51: the four invariants, tested in their order, and DECODE reports `OK` exactly on the tone frames
of its class that the block can play. -/
def Obligations.DecodeTestsTheInvariants : Prop :=
  ∀ (cls : FrameClass) (f : Frame) (s : State) (i1 i2 i3 i4 : Prop),
    (i1 ↔ f.toNat / 2 ^ 24 = (silence cls).toNat / 2 ^ 24) →
    (i2 ↔ (f.extractLsb' 0 8).toNat = 255 - ((f.extractLsb' 56 8).toNat + (f.extractLsb' 48 8).toNat +
      (f.extractLsb' 40 8).toNat + (f.extractLsb' 32 8).toNat + (f.extractLsb' 24 8).toNat + (f.extractLsb' 16 8).toNat +
      (f.extractLsb' 8 8).toNat) % 256) →
    (i3 ↔ f.extractLsb' 20 4 = 0xF) →
    (i4 ↔ (f.extractLsb' 8 8).toNat ≤ 0x74) →
    ∃ t, exec (.decode cls f) s = .next t ∧
      (¬ i1 → t.status.code = 1) ∧ (i1 → ¬ i2 → t.status.code = 2) ∧ (i1 → i2 → ¬ i3 → t.status.code = 3) ∧
      (i1 → i2 → i3 → ¬ i4 → t.status.code = 4) ∧ (t.status.code = 0 ↔ i1 ∧ i2 ∧ i3 ∧ i4)

/-- The two wire-frame rows (spec/30_encoding.md, section 1; the reading of a bare frame as the DECODE of its class is the
table's note and log 2): the effect is that DECODE's, and it completes with the outcome its checksum and index give it. -/
def Obligations.ToneFramesAreDecoded : Prop :=
  (∀ g t k s, exec (.tone3200 g t k) s = exec (.decode .c3200 (0x010009439CF#44 ++ g ++ t ++ k)) s ∧
    ∃ u, exec (.tone3200 g t k) s = .next u ∧
      u.status.code = (if k ≠ ~~~(0xE9 + ((0xF : GainStep) ++ g) + t) then 2 else if t.toNat > 0x74 then 4 else 0) ∧
      u.phase.toNat = (if u.status.code = 0 then (s.phase.toNat + 160) % 2 ^ 32 else s.phase.toNat)) ∧
  (∀ g t k s, exec (.tone1600 g t k) s = exec (.decode .c1600 (0x0100040025F#44 ++ g ++ t ++ k)) s ∧
    ∃ u, exec (.tone1600 g t k) s = .next u ∧
      u.status.code = (if k ≠ ~~~(0x2A + ((0xF : GainStep) ++ g) + t) then 2 else if t.toNat > 0x74 then 4 else 0) ∧
      u.phase.toNat = (if u.status.code = 0 then (s.phase.toNat + 320) % 2 ^ 32 else s.phase.toNat))

/-- spec/40_frame_codec.md, section 4, "Round trip" (derived there): what ENCODE builds, DECODE of the same class plays,
from any phase, with the same tone index and gain step. -/
def Obligations.EncodeThenDecodePlays : Prop :=
  ∀ (cls : FrameClass) (tone gain : Byte) (s : State) (p0 : Phase), tone.toNat ≤ 0x74 → gain.toNat ≤ 15 → ∃ t u,
    exec (.encode cls tone gain) s = .next t ∧ t.status.code = 0 ∧
    exec (.decode cls t.frameOut) { t with phase := p0 } = .next u ∧ u.status.code = 0 ∧
    u.phase.toNat = (p0.toNat + sampleCount cls) % 2 ^ 32 ∧
    frameToneIndex t.frameOut = tone ∧ (frameGainStep t.frameOut).toNat = gain.toNat

/-- spec/40_frame_codec.md, section 4, "Single-bit sensitivity" (derived there): a tone frame with one bit flipped,
whether its index is mapped or not, never decodes: a flip in bytes 0 to 4 reports `HeaderMismatch`, one in bytes 5 to 7 `ChecksumMismatch`. -/
def Obligations.OneFlippedBitIsCaught : Prop :=
  ∀ cls f s (k : Fin 64), ToneFrame cls f → ∃ t, exec (.decode cls (f ^^^ (1#64 <<< k.val))) s = .next t ∧
    t.status.code = (if 24 ≤ k.val then 1 else 2) ∧ t.phase = s.phase

/-- spec/40_frame_codec.md, section 4, "Indicator gating" and "Range rejection" (derived there): with the right header and
checksum, the outcome is by the indicator first and then by the index, for every fifth and sixth byte. -/
def Obligations.RightChecksumOutcome : Prop :=
  ∀ cls b5 b6 s, ∃ t, exec (.decode cls (checkedFrame cls b5 b6)) s = .next t ∧
    t.status.code = (if b5.toNat / 16 ≠ 15 then 3 else if b6.toNat > 0x74 then 4 else 0)

/-- spec/30_encoding.md, section 4 (sizes derived there): for every header and every fifth and sixth byte exactly one
checksum byte passes. -/
def Obligations.OneChecksumBytePasses : Prop :=
  ∀ cls (b5 b6 : Byte), ∃! b7 : Byte, ∀ s, ∃ t, exec (.decode cls (headerOf cls ++ b5 ++ b6 ++ b7)) s = .next t ∧
    t.status.code ≠ 2

/-- spec/30_encoding.md, section 5 (derived there): a tone frame of one class, whether its index is mapped or not,
decoded with the other fails with `HeaderMismatch`. -/
def Obligations.ToneFrameHasOneClass : Prop :=
  ∀ cls other f s, ToneFrame cls f → other ≠ cls → ∃ t, exec (.decode other f) s = .next t ∧ t.status.code = 1

/-- spec/40_frame_codec.md, section 4, "Failure leaves the stream intact" (derived there): after a failed DECODE the next
one gives what it would have given without it. -/
def Obligations.FailedDecodeLeavesTheStream : Prop :=
  ∀ cls f cls' f' s a, exec (.decode cls f) s = .next a → a.status.code ≠ 0 →
    ∃ b d, exec (.decode cls' f') s = .next b ∧ exec (.decode cls' f') a = .next d ∧
      d.status = b.status ∧ d.phase = b.phase ∧ d.audio = b.audio

/-- spec/40_frame_codec.md, section 2, and spec/70_reset_and_hazards.md, section 3 (derived there): a failed ENCODE after a
successful one of the same class leaves the earlier frame whole; of the other class it leaves a frame whose checksum is
wrong. -/
def Obligations.FailedEncodeKeepsOldBytes : Prop :=
  ∀ cls tone gain cls' tone' gain' s t u, exec (.encode cls tone gain) s = .next t → t.status.code = 0 →
    exec (.encode cls' tone' gain') t = .next u → u.status.code ≠ 0 →
    (cls' = cls → u.frameOut = t.frameOut) ∧
    (cls' ≠ cls → ∃ v, exec (.decode cls' u.frameOut) u = .next v ∧ v.status.code = 2)

/-! ### The synthesizer -/

/-- spec/42_dual_tone_synthesizer.md R110 to R114: the machine's `Sample` is the rounded, clamped real value of the two
sines, for every pair of frequencies, gain step and phase. -/
def Obligations.SampleIsRoundedRealValue : Prop :=
  ∀ (fh fl : CentiHertz) (g : GainStep) (p : Nat),
    (sample cfg fh fl g p).toInt = truncReal (min (max
      ((((g.toNat : ℝ) + 1) * 6.25) * (Real.sin (p * 2 * Real.pi * (fh.toNat / 100) / 8000) / 2
        + Real.sin (p * 2 * Real.pi * (fl.toNat / 100) / 8000) / 2) * 256) (-32760)) 32760)

/-- spec/42_dual_tone_synthesizer.md, section 4 ("Reference and accuracy"): at the tolerance this model runs with, 0 (log 11),
a hardware sample function conforms exactly when it gives the machine's sample for every table entry, gain step and phase. -/
def Obligations.ConformingSamplesAreTheMachines : Prop :=
  ∀ hw, Conforms cfg hw ↔ ∀ idx e, romRead cfg idx = some e → ∀ g, ∀ p < 2 ^ 32, hw e.fh e.fl g p = sample cfg e.fh e.fl g p

/-- spec/42_dual_tone_synthesizer.md R115: `Synth` is the sequence of samples from the phase on with the new phase, and a
successful DECODE writes exactly its samples and its phase. -/
def Obligations.DecodeWritesSynth : Prop :=
  (∀ e g p0 n, (synth cfg e g p0 n).1.length = n ∧ (synth cfg e g p0 n).2 = (p0 + n) % 2 ^ 32 ∧
    ∀ i < n, (synth cfg e g p0 n).1[i]? = some (sample cfg e.fh e.fl g ((p0 + i) % 2 ^ 32))) ∧
  ∀ cls f s, Playable cls f → ∃ t e, exec (.decode cls f) s = .next t ∧ romRead cfg (frameToneIndex f) = some e ∧
    t.audio = (synth cfg e (frameGainStep f) s.phase.toNat (sampleCount cls)).1 ∧
    t.phase.toNat = (synth cfg e (frameGainStep f) s.phase.toNat (sampleCount cls)).2

/-- spec/10_state.md, section 3, and spec/00_scope.md, section 3 (`PHASE_W`, log 9): the accumulator has the configured width,
32 here, and a synthesis in any configuration takes its phases modulo 2 to that width. -/
def Obligations.PhaseHasTheConfiguredWidth : Prop :=
  cfg.phaseWidth = 32 ∧ hostWidth .phase = cfg.phaseWidth ∧ (∀ s : State, s.phase.toNat < 2 ^ cfg.phaseWidth) ∧
  ∀ (c : Config) e g p0 n, (synth c e g p0 n).2 = (p0 + n) % 2 ^ c.phaseWidth ∧
    ∀ i < n, (synth c e g p0 n).1[i]? = some (sample c e.fh e.fl g ((p0 + i) % 2 ^ c.phaseWidth))

/-- spec/42_dual_tone_synthesizer.md, section 5, laws (b), (c), (e) of "Laws of `Sample`" (derived there): zero at phase 0,
symmetry in the two slots, and periodicity. -/
def Obligations.SampleSymmetricAndPeriodic : Prop :=
  ∀ (fh fl : CentiHertz) (g : GainStep) (p q : Nat),
    sample cfg fh fl g 0 = 0 ∧ sample cfg fh fl g p = sample cfg fl fh g p ∧
    (p % 800000 = q % 800000 → sample cfg fh fl g p = sample cfg fh fl g q) ∧
    (100 ∣ fh.toNat → 100 ∣ fl.toNat → p % 8000 = q % 8000 → sample cfg fh fl g p = sample cfg fh fl g q)

/-- spec/42_dual_tone_synthesizer.md, section 5, laws (f), (g), (h) of "Laws of `Sample`" (derived there): the bound by the
amplitude, oddness around a period, and that a larger gain step never gives a smaller magnitude. -/
def Obligations.SampleOddBoundedMonotone : Prop :=
  ∀ (fh fl : CentiHertz) (g h : GainStep) (p q : Nat),
    |(sample cfg fh fl g p).toInt| ≤ 1600 * (g.toNat + 1) ∧
    ((p + q) % 800000 = 0 → (sample cfg fh fl g q).toInt = -(sample cfg fh fl g p).toInt) ∧
    (g.toNat ≤ h.toNat → |(sample cfg fh fl g p).toInt| ≤ |(sample cfg fh fl h p).toInt|)

/-- spec/42_dual_tone_synthesizer.md, section 4, "Exactly known sine values" (derived there): wherever each sine is 0, 1 or -1
the sample is half the amplitude times their sum, exactly, for all sixteen pairs. -/
def Obligations.SampleAtExactPoints : Prop :=
  ∀ (fh fl : CentiHertz) (g : GainStep) (p : Nat) (a b : Int),
    (p * fh.toNat % 800000, a) ∈ exactSines → (p * fl.toNat % 800000, b) ∈ exactSines →
    (sample cfg fh fl g p).toInt = 800 * (g.toNat + 1) * (a + b)

/-- spec/42_dual_tone_synthesizer.md, section 5, "Phase continuity" (derived there): a synthesis splits anywhere. -/
def Obligations.SynthSplitsAnywhere : Prop :=
  ∀ c e g p0 n1 n2, (synth c e g p0 (n1 + n2)).1 =
      (synth c e g p0 n1).1 ++ (synth c e g (synth c e g p0 n1).2 n2).1 ∧
    (synth c e g p0 (n1 + n2)).2 = (synth c e g (synth c e g p0 n1).2 n2).2

/-- spec/42_dual_tone_synthesizer.md, section 5, "Phase continuity" (derived there), on the machine: two class-"3200" frames
of one tone decoded in a row give, together, the audio and the phase of one class-"1600" frame of it. -/
def Obligations.TwoShortFramesMakeALongOne : Prop :=
  ∀ g t s, t.toNat ≤ 0x74 → ∃ a b d,
    exec (.decode .c3200 (playableFrame .c3200 g t)) s = .next a ∧
    exec (.decode .c3200 (playableFrame .c3200 g t)) a = .next b ∧
    exec (.decode .c1600 (playableFrame .c1600 g t)) s = .next d ∧
    a.audio ++ b.audio = d.audio ∧ b.phase = d.phase

/-- spec/70_reset_and_hazards.md, section 3, "Phase wrap" (derived there): re-basing the phase modulo 800000 at a frame
boundary changes no sample of the frame, provided the frame does not reach the wrap. -/
def Obligations.RebasedPhaseKeepsSamples : Prop :=
  ∀ cls f s, s.phase.toNat + sampleCount cls ≤ 2 ^ 32 → ∃ a b,
    exec (.decode cls f) s = .next a ∧
    exec (.decode cls f) { s with phase := BitVec.ofNat _ (s.phase.toNat % 800000) } = .next b ∧
    a.audio = b.audio ∧ a.status = b.status

/-! ### Encodings and steps -/

/-- Decode and encode agree: no bit of an encoding is dropped, for every instruction with every operand. -/
def Obligations.DecodeOfEncode : Prop := ∀ i, decode (encode i) = .ok i

/-- spec/30_encoding.md R57: a word's unused fields do not change what it is, and the canonical encoding of what a word
stands for has the word's used fields and zeros elsewhere. R52, R53, with the bare frame as an instruction (log 2): a frame
that has a pattern is the encoding of what it decodes to. -/
def Obligations.UnusedFieldsAreIgnored : Prop :=
  (∀ w i, decodeCommand w = .ok i → encode i = .command (w &&& (match (cmdOp w).toNat with
    | 2 => 0xE000000000000FFFFFFFF
    | 3 => 0xFFFFF0000000000000000
    | 4 => 0xF0000FFFFFFFFFFFFFFFF
    | 5 => 0xEFF000000000000000000
    | _ => 0xE00000000000000000000))) ∧
  (∀ f i, decodeWire f = .ok i → encode i = .wire f)

/-- spec/30_encoding.md, section 6: a few canonical words (derived there) decode to their commands. -/
def Obligations.CanonicalWordsDecode : Prop :=
  decodeTableWord 88 0x000000000000000000000 = some .nop ∧
  decodeTableWord 88 0x200000000000000000000 = some .init ∧
  decodeTableWord 88 0x4000000000000FFFFFF00 = some (.ldphase 0xFFFFFF00) ∧
  decodeTableWord 88 0x774030000000000000000 = some (.encode .c1600 0x74 3) ∧
  decodeTableWord 88 0x80000010009439CFF0017 = some (.decode .c3200 0x010009439CFF0017) ∧
  decodeTableWord 88 0xA59000000000000000000 = some (.lookup 0x59) ∧
  decodeTableWord 64 0x010009439CFF0017 = some (.tone3200 0xF 0x00 0x17) ∧
  decodeTableWord 64 0x0100040025F35092 = some (.tone1600 0x3 0x50 0x92)

/-- A step (the port is the model's choice, log 1) runs the decoded instruction on the state without the input it took; with nothing to take, the block holds its
registers (log 1); and the word that `withFetchWord` gives is run on the state as it was. -/
def Obligations.StepRunsTheDecodedInstruction : Prop :=
  (∀ s w rest i, s.port = .word w :: rest → decode w = .ok i → step s = exec i { s with port := rest }) ∧
  (∀ s, s.port = [] → step s = .next s) ∧
  (∀ s nbits w i, decodeTableWord nbits w = some i → step (s.withFetchWord nbits w) = exec i s)

/-- spec/30_encoding.md R58: `op` 6 and 7 select no command, and every other code selects one. -/
def Obligations.ReservedOpsSelectNoCommand : Prop :=
  ∀ w, ((cmdOp w = 6 ∨ cmdOp w = 7) → decodeCommand w = .error (.reservedOp (cmdOp w))) ∧
    (cmdOp w ≠ 6 → cmdOp w ≠ 7 → ∃ i, decodeCommand w = .ok i)

/-- spec/30_encoding.md, section 4: a step refuses a command word with a reserved code by name, and no other command word
(that the words come from the port is the model's choice, log 1). -/
def Obligations.ReservedOpsAreRefused : Prop :=
  ∀ s w rest, s.port = .word (.command w) :: rest →
    ((cmdOp w = 6 ∨ cmdOp w = 7) → step s = .refused (.reservedOp (cmdOp w))) ∧
    (cmdOp w ≠ 6 → cmdOp w ≠ 7 → ∃ t, step s = .next t)

/-- A bare wire frame (the model's choice, log 2 and log 3): with the pattern of a class it is run, with neither it is refused by name. -/
def Obligations.BareFramesWithoutPatternAreRefused : Prop :=
  ∀ s f rest, s.port = .word (.wire f) :: rest →
    ((f.extractLsb' 20 44 = 0x010009439CF ∨ f.extractLsb' 20 44 = 0x0100040025F) → ∃ t, step s = .next t) ∧
    (f.extractLsb' 20 44 ≠ 0x010009439CF → f.extractLsb' 20 44 ≠ 0x0100040025F →
      step s = .refused (.noTonePattern f))

/-- spec/70_reset_and_hazards.md, section 5: a block that is given only resets and instructions never stops, however long it
runs, and takes one input a step (the port is the model's choice, log 1 and log 18). -/
def Obligations.AllowedInputsNeverStop : Prop :=
  ∀ (k : Nat) (s : State), (∀ x ∈ s.port, PortInput.allowed x) →
    ∃ t, Host.Core.run core k s = .next t ∧ t.port = s.port.drop k

/-- spec/20_memory.md, section 5, and spec/60_exceptions.md, section 5 (several instances as a list: log 17): a step of one instance leaves every other as it was, is that
instance's own step, and steps of two instances commute. -/
def Obligations.InstancesAreIndependent : Prop :=
  (∀ k (sys sys' : List State), stepInstance k sys = .next sys' →
    sys'.length = sys.length ∧ (∀ j, j ≠ k → sys'[j]? = sys[j]?) ∧
    ∀ s, sys[k]? = some s → ∃ t, step s = .next t ∧ sys'[k]? = some t) ∧
  (∀ j k (sys a b ab ba : List State), j ≠ k → stepInstance j sys = .next a → stepInstance k a = .next ab →
    stepInstance k sys = .next b → stepInstance j b = .next ba → ab = ba)
end

