-- ==== Sys2Proof/Laws/State.lean ====
section
/-!
SUPPORT. What each operation on the state does to each of its fields: one lemma per field per operation.
-/

namespace Sys2Proof.Machine

/-! ### `setPhase` -/

@[simp] theorem State.setPhase_phase (s : State) (p : Phase) : (s.setPhase p).phase = p := rfl
@[simp] theorem State.setPhase_status (s : State) (p : Phase) : (s.setPhase p).status = s.status := rfl
@[simp] theorem State.setPhase_frameOut (s : State) (p : Phase) : (s.setPhase p).frameOut = s.frameOut := rfl
@[simp] theorem State.setPhase_pcm (s : State) (p : Phase) : (s.setPhase p).pcm = s.pcm := rfl
@[simp] theorem State.setPhase_pcmLen (s : State) (p : Phase) : (s.setPhase p).pcmLen = s.pcmLen := rfl
@[simp] theorem State.setPhase_lkFound (s : State) (p : Phase) : (s.setPhase p).lkFound = s.lkFound := rfl
@[simp] theorem State.setPhase_lkFh (s : State) (p : Phase) : (s.setPhase p).lkFh = s.lkFh := rfl
@[simp] theorem State.setPhase_lkFl (s : State) (p : Phase) : (s.setPhase p).lkFl = s.lkFl := rfl
@[simp] theorem State.setPhase_port (s : State) (p : Phase) : (s.setPhase p).port = s.port := rfl

/-! ### `setStatus` -/

@[simp] theorem State.setStatus_phase (s : State) (r : Status) : (s.setStatus r).phase = s.phase := rfl
@[simp] theorem State.setStatus_status (s : State) (r : Status) : (s.setStatus r).status = r := rfl
@[simp] theorem State.setStatus_frameOut (s : State) (r : Status) : (s.setStatus r).frameOut = s.frameOut := rfl
@[simp] theorem State.setStatus_pcm (s : State) (r : Status) : (s.setStatus r).pcm = s.pcm := rfl
@[simp] theorem State.setStatus_pcmLen (s : State) (r : Status) : (s.setStatus r).pcmLen = s.pcmLen := rfl
@[simp] theorem State.setStatus_lkFound (s : State) (r : Status) : (s.setStatus r).lkFound = s.lkFound := rfl
@[simp] theorem State.setStatus_lkFh (s : State) (r : Status) : (s.setStatus r).lkFh = s.lkFh := rfl
@[simp] theorem State.setStatus_lkFl (s : State) (r : Status) : (s.setStatus r).lkFl = s.lkFl := rfl
@[simp] theorem State.setStatus_port (s : State) (r : Status) : (s.setStatus r).port = s.port := rfl

/-! ### `fail` -/

@[simp] theorem State.fail_phase (s : State) (r : Status) : (s.fail r).phase = s.phase := rfl
@[simp] theorem State.fail_status (s : State) (r : Status) : (s.fail r).status = r := rfl
@[simp] theorem State.fail_frameOut (s : State) (r : Status) : (s.fail r).frameOut = s.frameOut := rfl
@[simp] theorem State.fail_pcm (s : State) (r : Status) : (s.fail r).pcm = s.pcm := rfl
@[simp] theorem State.fail_pcmLen (s : State) (r : Status) : (s.fail r).pcmLen = s.pcmLen := rfl
@[simp] theorem State.fail_lkFound (s : State) (r : Status) : (s.fail r).lkFound = s.lkFound := rfl
@[simp] theorem State.fail_lkFh (s : State) (r : Status) : (s.fail r).lkFh = s.lkFh := rfl
@[simp] theorem State.fail_lkFl (s : State) (r : Status) : (s.fail r).lkFl = s.lkFl := rfl
@[simp] theorem State.fail_port (s : State) (r : Status) : (s.fail r).port = s.port := rfl

/-! ### `setFrameHeader` -/

@[simp] theorem State.setFrameHeader_phase (s : State) (h : Header) : (s.setFrameHeader h).phase = s.phase := rfl
@[simp] theorem State.setFrameHeader_status (s : State) (h : Header) : (s.setFrameHeader h).status = s.status := rfl
@[simp] theorem State.setFrameHeader_frameOut (s : State) (h : Header) : (s.setFrameHeader h).frameOut = h ++ s.frameOut.extractLsb' 0 24 := rfl
@[simp] theorem State.setFrameHeader_pcm (s : State) (h : Header) : (s.setFrameHeader h).pcm = s.pcm := rfl
@[simp] theorem State.setFrameHeader_pcmLen (s : State) (h : Header) : (s.setFrameHeader h).pcmLen = s.pcmLen := rfl
@[simp] theorem State.setFrameHeader_lkFound (s : State) (h : Header) : (s.setFrameHeader h).lkFound = s.lkFound := rfl
@[simp] theorem State.setFrameHeader_lkFh (s : State) (h : Header) : (s.setFrameHeader h).lkFh = s.lkFh := rfl
@[simp] theorem State.setFrameHeader_lkFl (s : State) (h : Header) : (s.setFrameHeader h).lkFl = s.lkFl := rfl
@[simp] theorem State.setFrameHeader_port (s : State) (h : Header) : (s.setFrameHeader h).port = s.port := rfl

/-! ### `setFrameTail` -/

@[simp] theorem State.setFrameTail_phase (s : State) (b5 b6 b7 : Byte) : (s.setFrameTail b5 b6 b7).phase = s.phase := rfl
@[simp] theorem State.setFrameTail_status (s : State) (b5 b6 b7 : Byte) : (s.setFrameTail b5 b6 b7).status = s.status := rfl
@[simp] theorem State.setFrameTail_frameOut (s : State) (b5 b6 b7 : Byte) : (s.setFrameTail b5 b6 b7).frameOut = frameHeader s.frameOut ++ b5 ++ b6 ++ b7 := rfl
@[simp] theorem State.setFrameTail_pcm (s : State) (b5 b6 b7 : Byte) : (s.setFrameTail b5 b6 b7).pcm = s.pcm := rfl
@[simp] theorem State.setFrameTail_pcmLen (s : State) (b5 b6 b7 : Byte) : (s.setFrameTail b5 b6 b7).pcmLen = s.pcmLen := rfl
@[simp] theorem State.setFrameTail_lkFound (s : State) (b5 b6 b7 : Byte) : (s.setFrameTail b5 b6 b7).lkFound = s.lkFound := rfl
@[simp] theorem State.setFrameTail_lkFh (s : State) (b5 b6 b7 : Byte) : (s.setFrameTail b5 b6 b7).lkFh = s.lkFh := rfl
@[simp] theorem State.setFrameTail_lkFl (s : State) (b5 b6 b7 : Byte) : (s.setFrameTail b5 b6 b7).lkFl = s.lkFl := rfl
@[simp] theorem State.setFrameTail_port (s : State) (b5 b6 b7 : Byte) : (s.setFrameTail b5 b6 b7).port = s.port := rfl

/-! ### `setAudio` -/

@[simp] theorem State.setAudio_phase (s : State) (n : Nat) (f : Nat → PcmSample) : (s.setAudio n f).phase = s.phase := rfl
@[simp] theorem State.setAudio_status (s : State) (n : Nat) (f : Nat → PcmSample) : (s.setAudio n f).status = s.status := rfl
@[simp] theorem State.setAudio_frameOut (s : State) (n : Nat) (f : Nat → PcmSample) : (s.setAudio n f).frameOut = s.frameOut := rfl
@[simp] theorem State.setAudio_pcm (s : State) (n : Nat) (f : Nat → PcmSample) : (s.setAudio n f).pcm = s.pcm.write n f := rfl
@[simp] theorem State.setAudio_pcmLen (s : State) (n : Nat) (f : Nat → PcmSample) : (s.setAudio n f).pcmLen = BitVec.ofNat 9 n := rfl
@[simp] theorem State.setAudio_lkFound (s : State) (n : Nat) (f : Nat → PcmSample) : (s.setAudio n f).lkFound = s.lkFound := rfl
@[simp] theorem State.setAudio_lkFh (s : State) (n : Nat) (f : Nat → PcmSample) : (s.setAudio n f).lkFh = s.lkFh := rfl
@[simp] theorem State.setAudio_lkFl (s : State) (n : Nat) (f : Nat → PcmSample) : (s.setAudio n f).lkFl = s.lkFl := rfl
@[simp] theorem State.setAudio_port (s : State) (n : Nat) (f : Nat → PcmSample) : (s.setAudio n f).port = s.port := rfl

/-! ### `setPort` -/

@[simp] theorem State.setPort_phase (s : State) (rest : List PortInput) : (s.setPort rest).phase = s.phase := rfl
@[simp] theorem State.setPort_status (s : State) (rest : List PortInput) : (s.setPort rest).status = s.status := rfl
@[simp] theorem State.setPort_frameOut (s : State) (rest : List PortInput) : (s.setPort rest).frameOut = s.frameOut := rfl
@[simp] theorem State.setPort_pcm (s : State) (rest : List PortInput) : (s.setPort rest).pcm = s.pcm := rfl
@[simp] theorem State.setPort_pcmLen (s : State) (rest : List PortInput) : (s.setPort rest).pcmLen = s.pcmLen := rfl
@[simp] theorem State.setPort_lkFound (s : State) (rest : List PortInput) : (s.setPort rest).lkFound = s.lkFound := rfl
@[simp] theorem State.setPort_lkFh (s : State) (rest : List PortInput) : (s.setPort rest).lkFh = s.lkFh := rfl
@[simp] theorem State.setPort_lkFl (s : State) (rest : List PortInput) : (s.setPort rest).lkFl = s.lkFl := rfl
@[simp] theorem State.setPort_port (s : State) (rest : List PortInput) : (s.setPort rest).port = rest := rfl

/-! ### `setLookup` -/

@[simp] theorem State.setLookup_phase (s : State) (o : Option RomEntry) : (s.setLookup o).phase = s.phase := by
  cases o <;> rfl
@[simp] theorem State.setLookup_status (s : State) (o : Option RomEntry) : (s.setLookup o).status = s.status := by
  cases o <;> rfl
@[simp] theorem State.setLookup_frameOut (s : State) (o : Option RomEntry) : (s.setLookup o).frameOut = s.frameOut := by
  cases o <;> rfl
@[simp] theorem State.setLookup_pcm (s : State) (o : Option RomEntry) : (s.setLookup o).pcm = s.pcm := by
  cases o <;> rfl
@[simp] theorem State.setLookup_pcmLen (s : State) (o : Option RomEntry) : (s.setLookup o).pcmLen = s.pcmLen := by
  cases o <;> rfl
@[simp] theorem State.setLookup_port (s : State) (o : Option RomEntry) : (s.setLookup o).port = s.port := by
  cases o <;> rfl
@[simp] theorem State.setLookup_lkFound (s : State) (o : Option RomEntry) : (s.setLookup o).lkFound = o.isSome := by
  cases o <;> rfl
@[simp] theorem State.setLookup_lkFh (s : State) (o : Option RomEntry) :
    (s.setLookup o).lkFh = (o.map RomEntry.fh).getD 0 := by cases o <;> rfl
@[simp] theorem State.setLookup_lkFl (s : State) (o : Option RomEntry) :
    (s.setLookup o).lkFl = (o.map RomEntry.fl).getD 0 := by cases o <;> rfl

/-! ### `applyReset` -/

@[simp] theorem State.applyReset_phase (s : State) : s.applyReset.phase = State.reset.phase := rfl
@[simp] theorem State.applyReset_status (s : State) : s.applyReset.status = State.reset.status := rfl
@[simp] theorem State.applyReset_frameOut (s : State) : s.applyReset.frameOut = State.reset.frameOut := rfl
@[simp] theorem State.applyReset_pcm (s : State) : s.applyReset.pcm = State.reset.pcm := rfl
@[simp] theorem State.applyReset_pcmLen (s : State) : s.applyReset.pcmLen = State.reset.pcmLen := rfl
@[simp] theorem State.applyReset_lkFound (s : State) : s.applyReset.lkFound = State.reset.lkFound := rfl
@[simp] theorem State.applyReset_lkFh (s : State) : s.applyReset.lkFh = State.reset.lkFh := rfl
@[simp] theorem State.applyReset_lkFl (s : State) : s.applyReset.lkFl = State.reset.lkFl := rfl
@[simp] theorem State.applyReset_port (s : State) : s.applyReset.port = s.port := rfl

theorem State.setPort_setPort (s : State) (a b : List PortInput) : (s.setPort a).setPort b = s.setPort b := rfl

theorem State.setPort_self (s : State) : s.setPort s.port = s := rfl

/-- Two states with the same registers and the same port are the same state. -/
theorem State.ext_fields {s t : State} (h1 : s.phase = t.phase) (h2 : s.status = t.status) (h3 : s.frameOut = t.frameOut)
    (h4 : s.pcm = t.pcm) (h5 : s.pcmLen = t.pcmLen) (h6 : s.lkFound = t.lkFound) (h7 : s.lkFh = t.lkFh)
    (h8 : s.lkFl = t.lkFl) (h9 : s.port = t.port) : s = t := by
  cases s; cases t; simp_all

end Sys2Proof.Machine
end

