-- ==== Sys2Proof/Laws/Pcm.lean ====
section
/-!
SUPPORT. The PCM space: what a read sees after a write, and that equal reads mean equal buffers. (That every operation
keeps the buffer at 320 entries is part of the type `Pcm`.)
-/

namespace Sys2Proof.Machine

theorem overwrite_getElem? (f : Nat → PcmSample) : ∀ n i xs j, j < xs.length →
    (overwrite f n i xs)[j]? = if j < n then some (f (i + j)) else xs[j]?
  | _, _, [], _, h => absurd h (Nat.not_lt_zero _)
  | 0, _, _ :: _, _, _ => by simp [overwrite]
  | n + 1, i, x :: xs, 0, _ => by simp [overwrite]
  | n + 1, i, x :: xs, j + 1, h => by
    have := overwrite_getElem? f n (i + 1) xs j (Nat.lt_of_succ_lt_succ h)
    simp only [overwrite, List.getElem?_cons_succ, this, Nat.add_lt_add_iff_right]
    split
    · congr 2; omega
    · rfl

/-- A read after a write gives what was written, and elsewhere what was there (spec/20_memory.md R31). -/
@[simp] theorem Pcm.read_write (b : Pcm) (n : Nat) (f : Nat → PcmSample) (i : Fin pcmSize) :
    (b.write n f).read i = if i.val < n then f i.val else b.read i := by
  have hlen : i.val < b.samples.length := b.size.symm ▸ i.isLt
  have h := overwrite_getElem? f n 0 b.samples i.val hlen
  have hlen' : i.val < (overwrite f n 0 b.samples).length := (overwrite_length f n 0 b.samples).symm ▸ hlen
  rw [List.getElem?_eq_getElem hlen', List.getElem?_eq_getElem hlen, Nat.zero_add] at h
  simp only [Pcm.read, Pcm.write]
  split at h <;> simp_all

@[simp] theorem Pcm.read_zero (i : Fin pcmSize) : Pcm.zero.read i = 0 := by
  simp only [Pcm.read, Pcm.zero, List.getElem_replicate]

/-- A buffer is what its reads give. -/
theorem Pcm.ext_read {a b : Pcm} (h : ∀ i, a.read i = b.read i) : a = b := by
  obtain ⟨xs, hx⟩ := a
  obtain ⟨ys, hy⟩ := b
  congr 1
  refine List.ext_getElem (hx.trans hy.symm) fun j h1 h2 => ?_
  exact h ⟨j, hx ▸ h1⟩

/-- The first `n` places after a write of `n` samples. -/
theorem overwrite_take (f : Nat → PcmSample) : ∀ n i xs, n ≤ xs.length →
    (overwrite f n i xs).take n = (List.range n).map fun j => f (i + j)
  | 0, _, xs, _ => by simp
  | n + 1, _, [], h => absurd h (by simp)
  | n + 1, i, x :: xs, h => by
    have := overwrite_take f n (i + 1) xs (Nat.le_of_succ_le_succ h)
    simp only [overwrite, List.take_succ_cons, this, List.range_succ_eq_map, List.map_cons, List.map_map, Nat.add_zero]
    congr 2
    funext j
    simp only [Function.comp_apply]
    congr 1
    omega

theorem Pcm.write_take (b : Pcm) (n : Nat) (f : Nat → PcmSample) (h : n ≤ pcmSize) :
    (b.write n f).samples.take n = (List.range n).map f := by
  have := overwrite_take f n 0 b.samples (b.size.symm ▸ h)
  simpa [Pcm.write] using this

end Sys2Proof.Machine
end

