-- ==== Sys2Proof/Laws/Codec.lean ====
section
/-!
SUPPORT. The codec's definitions, once each: the fields of a packed frame, the checksum of one, when the table has an
index, what the tests of DECODE answer, and what ENCODE and DECODE leave in each register.
-/

namespace Sys2Proof.Machine

/-! ### Fields of packed frames -/

theorem extract_append_low {a b : Nat} (x : BitVec a) (y : BitVec b) (s n : Nat) (h : s + n ≤ b) :
    (x ++ y).extractLsb' s n = y.extractLsb' s n := by
  ext i hi
  have h1 : s + i < b := by omega
  simp [BitVec.getElem_extractLsb', BitVec.getLsbD_append, h1]

theorem extract_append_high {a b : Nat} (x : BitVec a) (y : BitVec b) (s n : Nat) (h : b ≤ s) :
    (x ++ y).extractLsb' s n = x.extractLsb' (s - b) n := by
  ext i hi
  have h1 : ¬ s + i < b := by omega
  simp only [BitVec.getElem_extractLsb', BitVec.getLsbD_append, h1, if_false]
  congr 1
  omega

theorem extract_all {n : Nat} (x : BitVec n) : x.extractLsb' 0 n = x := by
  ext i hi
  simp

section Pack

variable (h : Header) (i g : GainStep) (t c : Byte)

@[simp] theorem frameHeader_pack : frameHeader (packFrame h i g t c) = h := by
  unfold frameHeader packFrame
  rw [extract_append_high _ c _ _ (by omega), extract_append_high _ t _ _ (by omega), extract_append_high _ g _ _ (by omega),
    extract_append_high _ i _ _ (by omega), extract_all]

@[simp] theorem frameIndicator_pack : frameIndicator (packFrame h i g t c) = i := by
  unfold frameIndicator packFrame
  rw [extract_append_high _ c _ _ (by omega), extract_append_high _ t _ _ (by omega), extract_append_high _ g _ _ (by omega),
    extract_append_low _ i _ _ (by omega), extract_all]

@[simp] theorem frameGainStep_pack : frameGainStep (packFrame h i g t c) = g := by
  unfold frameGainStep packFrame
  rw [extract_append_high _ c _ _ (by omega), extract_append_high _ t _ _ (by omega), extract_append_low _ g _ _ (by omega),
    extract_all]

@[simp] theorem frameToneIndex_pack : frameToneIndex (packFrame h i g t c) = t := by
  unfold frameToneIndex packFrame
  rw [extract_append_high _ c _ _ (by omega), extract_append_low _ t _ _ (by omega), extract_all]

@[simp] theorem frameChecksum_pack : frameChecksum (packFrame h i g t c) = c := by
  unfold frameChecksum packFrame
  rw [extract_append_low _ c _ _ (by omega), extract_all]

theorem frameByte_pack_header (k : Nat) (hk : k < 5) : frameByte (packFrame h i g t c) k = headerByte h k := by
  unfold frameByte headerByte packFrame
  rw [extract_append_high _ c _ _ (by omega), extract_append_high _ t _ _ (by omega), extract_append_high _ g _ _ (by omega),
    extract_append_high _ i _ _ (by omega)]
  congr 1
  omega

theorem frameByte_pack_five : frameByte (packFrame h i g t c) 5 = i ++ g := by
  unfold frameByte packFrame
  rw [extract_append_high _ c _ _ (by omega), extract_append_high _ t _ _ (by omega)]
  ext j hj
  refine Eq.trans ?_ (BitVec.getElem_append (x := i) (y := g) hj).symm
  simp only [BitVec.getElem_extractLsb', Nat.sub_self, Nat.mul_succ, Nat.zero_add, BitVec.getLsbD_append]
  split
  · simp [BitVec.getLsbD_eq_getElem, *]
  · have h6 : j - 4 < 4 := by omega
    simp [BitVec.getLsbD_eq_getElem, h6]

theorem frameByte_pack_six : frameByte (packFrame h i g t c) 6 = t := by
  unfold frameByte packFrame
  rw [extract_append_high _ c _ _ (by omega), extract_append_low _ t _ _ (by omega), extract_all]

theorem frameByte_pack_seven : frameByte (packFrame h i g t c) 7 = c := by
  unfold frameByte packFrame
  rw [extract_append_low _ c _ _ (by omega), extract_all]

/-- The checksum of a packed frame covers its header, the byte of indicator and gain step, and the tone index. -/
theorem frameSum_pack : frameSum (packFrame h i g t c) = headerSum h (i ++ g) t := by
  unfold frameSum headerSum
  rw [frameByte_pack_five, frameByte_pack_six, frameByte_pack_header _ _ _ _ _ 0 (by omega),
    frameByte_pack_header _ _ _ _ _ 1 (by omega), frameByte_pack_header _ _ _ _ _ 2 (by omega),
    frameByte_pack_header _ _ _ _ _ 3 (by omega), frameByte_pack_header _ _ _ _ _ 4 (by omega)]

end Pack

/-- A frame is the packing of its fields. -/
theorem pack_fields (f : Frame) :
    packFrame (frameHeader f) (frameIndicator f) (frameGainStep f) (frameToneIndex f) (frameChecksum f) = f := by
  unfold packFrame frameHeader frameIndicator frameGainStep frameToneIndex frameChecksum
  ext j hj
  simp only [BitVec.getElem_append, BitVec.getElem_extractLsb']
  have hf : f[j] = f.getLsbD j := rfl
  rw [hf]
  split
  · simp
  · split
    · congr 1; omega
    · split
      · congr 1; omega
      · split
        · congr 1; omega
        · congr 1; omega

/-- The two classes have different headers (spec/30_encoding.md R61). -/
theorem headerOf_injective {a b : FrameClass} (h : headerOf a = headerOf b) : a = b := by
  cases a <;> cases b <;> first | rfl | exact absurd h (by decide)

/-! ### ENCODE -/

/-- Byte 5 on encode is the indicator over the gain step (spec/30_encoding.md R56). -/
theorem gainByte_eq (gain : Byte) : gainByte gain = (0xF : GainStep) ++ gain.extractLsb' 0 4 := by
  revert gain
  decide +kernel

theorem setFrame_frameOut (s : State) (h : Header) (i g : GainStep) (t c : Byte) :
    ((s.setFrameHeader h).setFrameTail (i ++ g) t c).frameOut = packFrame h i g t c := by
  have e : frameHeader (h ++ s.frameOut.extractLsb' 0 24) = h := by
    unfold frameHeader
    rw [extract_append_high _ _ _ _ (by omega), extract_all]
  simp only [State.setFrameTail_frameOut, State.setFrameHeader_frameOut, e, packFrame]
  ext j hj
  simp only [BitVec.getElem_append]
  split_ifs <;> first | rfl | omega

theorem encodeCheck_cases (c : Config) (tone gain : Byte) :
    encodeCheck c tone gain = if tone > c.maxIndex then .indexOutOfRange else if gain > 15 then .gainOutOfRange else .ok := rfl

/-- ENCODE on operands in range: the playable frame of the class (spec/40_frame_codec.md R72). -/
theorem encodeFrame_ok (c : Config) (cls : FrameClass) (tone gain : Byte) (s : State) (h : encodeCheck c tone gain = .ok) :
    encodeFrame c cls tone gain s =
      ({ s with frameOut := playableFrame cls (gain.extractLsb' 0 4) tone, status := .ok } : State) := by
  unfold encodeFrame
  rw [h]
  refine State.ext_fields rfl rfl ?_ rfl rfl rfl rfl rfl rfl
  rw [State.setStatus_frameOut, gainByte_eq, setFrame_frameOut]
  rfl

/-- ENCODE on an operand out of range: the header over the old low bytes, and the reason (spec/40_frame_codec.md R72). -/
theorem encodeFrame_fail (c : Config) (cls : FrameClass) (tone gain : Byte) (s : State) (r : Status) (hr : r ≠ .ok)
    (h : encodeCheck c tone gain = r) : encodeFrame c cls tone gain s = (s.setFrameHeader (headerOf cls)).fail r := by
  unfold encodeFrame
  rw [h]
  cases r <;> first | exact absurd rfl hr | rfl

/-- What ENCODE leaves alone, whatever the operands (spec/40_frame_codec.md R72). -/
theorem encodeFrame_frame (c : Config) (cls : FrameClass) (tone gain : Byte) (s : State) :
    (encodeFrame c cls tone gain s).phase = s.phase ∧ (encodeFrame c cls tone gain s).pcm = s.pcm ∧
    (encodeFrame c cls tone gain s).pcmLen = s.pcmLen ∧ (encodeFrame c cls tone gain s).lkFound = s.lkFound ∧
    (encodeFrame c cls tone gain s).lkFh = s.lkFh ∧ (encodeFrame c cls tone gain s).lkFl = s.lkFl ∧
    (encodeFrame c cls tone gain s).port = s.port := by
  unfold encodeFrame
  split <;> exact ⟨rfl, rfl, rfl, rfl, rfl, rfl, rfl⟩

/-! ### The table and the tests of DECODE -/

/-- The table of this configuration holds exactly the indices up to `MAX_INDEX` (spec/20_memory.md R30). -/
theorem romRead_isSome (idx : Byte) : (romRead cfg idx).isSome = decide (idx ≤ cfg.maxIndex) := by
  revert idx
  decide +kernel

theorem romRead_eq_none (idx : Byte) : romRead cfg idx = none ↔ ¬ idx ≤ cfg.maxIndex := by
  have := romRead_isSome idx
  cases h : romRead cfg idx <;> simp_all

/-- The tests of DECODE answer an entry exactly when all four pass (spec/30_encoding.md R51). -/
theorem validate_eq_ok (c : Config) (cls : FrameClass) (f : Frame) (e : RomEntry) :
    validate c cls f = .ok e ↔ frameHeader f = headerOf cls ∧ frameByte f 7 = frameSum f ∧ frameIndicator f = 0xF ∧
      romRead c (frameToneIndex f) = some e := by
  unfold validate
  split_ifs with h1 h2 h3
  · simp_all
  · simp_all
  · simp_all
  · push Not at h1 h2 h3
    cases h : romRead c (frameToneIndex f) <;> simp_all

theorem validate_playable (cls : FrameClass) (f : Frame) : (validate cfg cls f).toBool = true ↔ Playable cls f := by
  have hrom := romRead_isSome (frameToneIndex f)
  unfold Playable ToneFrame validate
  split_ifs with h1 h2 h3
  · simp_all [Except.toBool]
  · simp_all [Except.toBool]
  · simp_all [Except.toBool]
  · push Not at h1 h2 h3
    cases h : romRead cfg (frameToneIndex f) <;> simp_all [Except.toBool]

/-- A failing DECODE: zeros, the length, the reason; the phase stays (spec/60_exceptions.md R145). -/
theorem decodeFrame_error (c : Config) (cls : FrameClass) (f : Frame) (s : State) (r : Status)
    (h : validate c cls f = .error r) :
    decodeFrame c cls f s = (s.setAudio (sampleCount cls) fun _ => 0).fail r := by
  unfold decodeFrame
  rw [h]

/-- A successful DECODE: the samples from the old phase on, the length, the new phase, `OK` (spec/40_frame_codec.md R74). -/
theorem decodeFrame_ok (c : Config) (cls : FrameClass) (f : Frame) (s : State) (e : RomEntry) (h : validate c cls f = .ok e) :
    decodeFrame c cls f s =
      ((s.setAudio (sampleCount cls) (synthSample c e (frameGainStep f) s.phase.toNat)).setPhase
        (BitVec.ofNat _ (advance c s.phase.toNat (sampleCount cls)))).setStatus .ok := by
  unfold decodeFrame
  rw [h]

theorem sampleCount_le (cls : FrameClass) : sampleCount cls ≤ pcmSize := by cases cls <;> decide

/-- The result of a DECODE, "audioSamples", is what it wrote (spec/10_state.md R20). -/
theorem setAudio_audio (s : State) (cls : FrameClass) (f : Nat → PcmSample) :
    (s.setAudio (sampleCount cls) f).audio = (List.range (sampleCount cls)).map f := by
  have e : (BitVec.ofNat 9 (sampleCount cls)).toNat = sampleCount cls := by cases cls <;> rfl
  unfold State.audio
  rw [State.setAudio_pcmLen, State.setAudio_pcm, e, Pcm.write_take _ _ _ (sampleCount_le cls)]

/-- What DECODE leaves alone, whatever the frame (spec/40_frame_codec.md R74). -/
theorem decodeFrame_frame (c : Config) (cls : FrameClass) (f : Frame) (s : State) :
    (decodeFrame c cls f s).frameOut = s.frameOut ∧ (decodeFrame c cls f s).lkFound = s.lkFound ∧
    (decodeFrame c cls f s).lkFh = s.lkFh ∧ (decodeFrame c cls f s).lkFl = s.lkFl ∧
    (decodeFrame c cls f s).port = s.port := by
  unfold decodeFrame
  split <;> exact ⟨rfl, rfl, rfl, rfl, rfl⟩

end Sys2Proof.Machine
end

