-- ==== Sys2Proof/Laws/Decode.lean ====
section
/-!
SUPPORT. The fields of a packed command word, and that a command word is the packing of its fields.
-/

namespace Sys2Proof

open Machine

section Pack

variable (op : BitVec 3) (cls : BitVec 1) (tone gain : Byte) (data : BitVec 64)

@[simp] theorem cmdOp_pack : cmdOp (packCommand op cls tone gain data) = op := by
  unfold cmdOp packCommand
  rw [extract_append_high _ data _ _ (by omega), extract_append_high _ gain _ _ (by omega),
    extract_append_high _ tone _ _ (by omega), extract_append_high _ cls _ _ (by omega), extract_all]

@[simp] theorem cmdTone_pack : cmdTone (packCommand op cls tone gain data) = tone := by
  unfold cmdTone packCommand
  rw [extract_append_high _ data _ _ (by omega), extract_append_high _ gain _ _ (by omega),
    extract_append_low _ tone _ _ (by omega), extract_all]

@[simp] theorem cmdGain_pack : cmdGain (packCommand op cls tone gain data) = gain := by
  unfold cmdGain packCommand
  rw [extract_append_high _ data _ _ (by omega), extract_append_low _ gain _ _ (by omega), extract_all]

@[simp] theorem cmdData_pack : cmdData (packCommand op cls tone gain data) = data := by
  unfold cmdData packCommand
  rw [extract_append_low _ data _ _ (by omega), extract_all]

theorem classBit_pack : (packCommand op cls tone gain data).getLsbD 80 = cls.getLsbD 0 := by
  unfold packCommand
  simp only [BitVec.getLsbD_append]
  rfl

@[simp] theorem cmdClass_pack (c : FrameClass) : cmdClass (packCommand op (classBit c) tone gain data) = c := by
  unfold cmdClass
  rw [classBit_pack]
  cases c <;> rfl

end Pack

end Sys2Proof
end

