-- ==== Sys2Proof/Laws/PerInstr.lean ====
section
/-!
SUPPORT. The statement family `TableRow`: the encoding of every instruction has, under its row's mask in
spec/opcode_table.json, the bits of its row's match. One lemma per constructor.
-/

namespace Sys2Proof.Laws.TableRow

open Sys2Proof.Machine

/-- The bits a row fixes: bits 83:81 of a command word, bits 63:20 of a wire frame (the rows' masks). -/
def fixedBits : InstrWord → BitVec 3 ⊕ BitVec 44
  | .command w => .inl (w.extractLsb' 81 3)
  | .wire f => .inr (f.extractLsb' 20 44)

/-- The row's match, in those bits. -/
def rowMatch : Instr → BitVec 3 ⊕ BitVec 44
  | .nop => .inl 0
  | .init => .inl 1
  | .ldphase _ => .inl 2
  | .encode .. => .inl 3
  | .decode .. => .inl 4
  | .lookup _ => .inl 5
  | .tone3200 .. => .inr 0x010009439CF
  | .tone1600 .. => .inr 0x0100040025F

/-- The instruction's encoding lies in its row. -/
def Statement (i : Instr) : Prop := fixedBits (encode i) = rowMatch i

theorem nop : Statement .nop := congrArg Sum.inl (cmdOp_pack ..)
theorem init : Statement .init := congrArg Sum.inl (cmdOp_pack ..)
theorem ldphase (p : PhaseOperand) : Statement (.ldphase p) := congrArg Sum.inl (cmdOp_pack ..)
theorem encode (cls : FrameClass) (tone gain : Byte) : Statement (.encode cls tone gain) :=
  congrArg Sum.inl (cmdOp_pack ..)
theorem decode (cls : FrameClass) (f : Frame) : Statement (.decode cls f) := congrArg Sum.inl (cmdOp_pack ..)
theorem lookup (tone : Byte) : Statement (.lookup tone) := congrArg Sum.inl (cmdOp_pack ..)

theorem pattern_bits (h : Header) (g : GainStep) (t c : Byte) :
    (packFrame h 0xF g t c).extractLsb' 20 44 = h ++ (0xF : GainStep) := by
  unfold packFrame
  rw [extract_append_high _ c _ _ (by omega), extract_append_high _ t _ _ (by omega), extract_append_high _ g _ _ (by omega)]
  exact extract_all _

theorem tone3200 (g : GainStep) (t c : Byte) : Statement (.tone3200 g t c) :=
  congrArg Sum.inr ((pattern_bits ..).trans (by decide))
theorem tone1600 (g : GainStep) (t c : Byte) : Statement (.tone1600 g t c) :=
  congrArg Sum.inr ((pattern_bits ..).trans (by decide))

end Sys2Proof.Laws.TableRow
end

