-- ==== Sys2Proof/Laws/Phase.lean ====
section
/-!
SUPPORT. The phase after some samples: sums, and the phase of the running machine as a bit vector.
-/

namespace Sys2Proof.Machine

/-- The width this model runs with (log 9). -/
theorem cfg_phaseWidth : cfg.phaseWidth = 32 := rfl

/-- Advancing twice is advancing by the sum, at every width (spec/42_dual_tone_synthesizer.md R119). -/
@[simp] theorem advance_advance (c : Config) (p m n : Nat) : advance c (advance c p m) n = advance c p (m + n) := by
  unfold advance
  rw [Nat.mod_add_mod, Nat.add_assoc]

/-- The sum in this configuration (spec/10_state.md R15). -/
theorem cfg_advance (p n : Nat) : advance cfg p n = (p + n) % 2 ^ 32 := rfl

/-- A number put into the register of this configuration. -/
theorem toNat_ofNat_phase (n : Nat) : (BitVec.ofNat cfg.phaseWidth n).toNat = n % 2 ^ 32 := BitVec.toNat_ofNat ..

/-- The sum in the register of this configuration. -/
theorem toNat_add_ofNat (p : Phase) (n : Nat) : (p + BitVec.ofNat cfg.phaseWidth n).toNat = (p.toNat + n) % 2 ^ 32 := by
  rw [BitVec.toNat_add, BitVec.toNat_ofNat, Nat.add_mod_mod]
  rfl

/-- The new phase of a machine is the sum at the register's width. -/
theorem ofNat_advance (p : Phase) (n : Nat) :
    BitVec.ofNat cfg.phaseWidth (advance cfg p.toNat n) = p + BitVec.ofNat cfg.phaseWidth n := by
  apply BitVec.eq_of_toNat_eq
  simp [advance]

/-- The number in the register after it took a phase. -/
theorem toNat_ofNat_advance (p n : Nat) : (BitVec.ofNat cfg.phaseWidth (advance cfg p n)).toNat = advance cfg p n := by
  simp [advance]

/-- The operand of LDPHASE fits the register of this configuration (spec/43_phase_control.md R132). -/
theorem toNat_ofNat_operand (p : PhaseOperand) : (BitVec.ofNat cfg.phaseWidth p.toNat).toNat = p.toNat := by
  rw [BitVec.toNat_ofNat]
  exact Nat.mod_eq_of_lt p.isLt

end Sys2Proof.Machine
end

