-- ==== Sys2Proof/Laws/Rounding.lean ====
section
/-!
SUPPORT. Clamping and rounding toward zero (spec/42_dual_tone_synthesizer.md R114): monotone, when they reach an integer,
and that `clampTrunc` and `roundAt` are them on rationals.
-/

namespace Sys2Proof.Laws

open Sys2Proof.Machine

/-- Clamp, then round toward zero: `refSample` is this of `realSample`. -/
noncomputable def roundReal (v : ℝ) : Int := truncReal (clampReal v)

theorem le_truncReal {n : Int} (hn : 0 < n) (w : ℝ) : n ≤ truncReal w ↔ (n : ℝ) ≤ w := by
  unfold truncReal
  split_ifs with h
  · exact Int.le_floor
  · push Not at h
    have h1 : ⌈w⌉ ≤ 0 := Int.ceil_le.mpr (by simpa using h.le)
    have h2 : (0 : ℝ) < n := by exact_mod_cast hn
    constructor
    · intro h3; omega
    · intro h3; linarith

theorem truncReal_le {n : Int} (hn : n < 0) (w : ℝ) : truncReal w ≤ n ↔ w ≤ n := by
  unfold truncReal
  have h2 : (n : ℝ) < 0 := by exact_mod_cast hn
  split_ifs with h
  · have h1 : 0 ≤ ⌊w⌋ := Int.floor_nonneg.mpr h
    constructor
    · intro h3; omega
    · intro h3; linarith
  · exact Int.ceil_le

theorem truncReal_mono : Monotone truncReal := by
  intro a b hab
  unfold truncReal
  split_ifs with h1 h2 h2
  · exact Int.floor_le_floor hab
  · linarith
  · push Not at h1
    have h3 : ⌈a⌉ ≤ 0 := Int.ceil_le.mpr (by simpa using h1.le)
    have h4 : 0 ≤ ⌊b⌋ := Int.floor_nonneg.mpr h2
    omega
  · exact Int.ceil_le_ceil hab

theorem clampReal_mono : Monotone clampReal := fun _ _ h => min_le_min_right _ (max_le_max_right _ h)

theorem floor_int_div (n d : Int) (hd : 0 < d) : ⌊(n : ℝ) / d⌋ = n / d := by
  have hd' : (0 : ℝ) < d := by exact_mod_cast hd
  rw [Int.floor_eq_iff, le_div_iff₀ hd', div_lt_iff₀ hd']
  constructor
  · exact_mod_cast Int.ediv_mul_le n hd.ne'
  · exact_mod_cast Int.lt_ediv_add_one_mul_self n hd

theorem truncReal_div (n d : Int) (hd : 0 < d) : truncReal ((n : ℝ) / d) = n.tdiv d := by
  have hd' : (0 : ℝ) < d := by exact_mod_cast hd
  unfold truncReal
  rcases le_or_gt 0 n with hn | hn
  · have h : (0 : ℝ) ≤ (n : ℝ) / d := div_nonneg (by exact_mod_cast hn) hd'.le
    rw [if_pos h, Int.tdiv_eq_ediv_of_nonneg hn, floor_int_div n d hd]
  · have h : ¬(0 : ℝ) ≤ (n : ℝ) / d := not_le.mpr (div_neg_of_neg_of_pos (by exact_mod_cast hn) hd')
    have hf := floor_int_div (-n) d hd
    rw [Int.cast_neg, neg_div, Int.floor_neg, neg_eq_iff_eq_neg] at hf
    rw [if_neg h, hf, ← Int.tdiv_eq_ediv_of_nonneg (by omega), Int.neg_tdiv, neg_neg]

theorem clampTrunc_eq (n d : Int) (hd : 0 < d) : clampTrunc n d = roundReal ((n : ℝ) / d) := by
  have hd' : (0 : ℝ) < d := by exact_mod_cast hd
  unfold clampTrunc roundReal clampLevel
  rw [← truncReal_div _ _ hd]
  congr 1
  unfold clampReal
  push_cast
  rw [← max_div_div_right hd'.le, ← min_div_div_right hd'.le, mul_div_assoc, mul_div_assoc, div_self hd'.ne', mul_one, mul_one]
  rw [min_def, max_def, max_def, min_def]
  split_ifs <;> linarith

theorem le_roundReal {n : Int} (hn : 0 < n) (hn' : n ≤ 32760) (v : ℝ) : n ≤ roundReal v ↔ (n : ℝ) ≤ v := by
  rw [roundReal, le_truncReal hn, clampReal, le_min_iff, le_max_iff]
  have h1 : (0 : ℝ) < n := by exact_mod_cast hn
  have h2 : (n : ℝ) ≤ 32760 := by exact_mod_cast hn'
  constructor
  · rintro ⟨h | h, -⟩
    · exact h
    · linarith
  · exact fun h => ⟨.inl h, h2⟩

theorem roundReal_le {n : Int} (hn : n < 0) (hn' : -32760 ≤ n) (v : ℝ) : roundReal v ≤ n ↔ v ≤ n := by
  rw [roundReal, truncReal_le hn, clampReal, min_le_iff, max_le_iff]
  have h1 : (n : ℝ) < 0 := by exact_mod_cast hn
  have h2 : (-32760 : ℝ) ≤ n := by exact_mod_cast hn'
  constructor
  · rintro (⟨h, -⟩ | h)
    · exact h
    · linarith
  · exact fun h => .inl ⟨h, h2⟩

theorem roundReal_mono : Monotone roundReal := truncReal_mono.comp clampReal_mono

theorem roundReal_bounds (v : ℝ) : -32760 ≤ roundReal v ∧ roundReal v ≤ 32760 := by
  constructor
  · by_contra h
    have h1 : roundReal v < -32760 := by omega
    have h2 : v ≤ (-32760 : Int) := (roundReal_le (by norm_num) (by norm_num) v).mp h1.le
    have e : clampReal v = -32760 := by
      unfold clampReal; push_cast at h2; rw [max_eq_right h2]; norm_num
    rw [roundReal, e] at h1
    have : truncReal (-32760) = -32760 := by
      have := truncReal_div (-32760) 1 (by norm_num); simpa using this
    omega
  · by_contra h
    have h1 : 32760 < roundReal v := by omega
    have h2 : ((32760 : Int) : ℝ) ≤ v := (le_roundReal (by norm_num) (by norm_num) v).mp h1.le
    have e : clampReal v = 32760 := by
      unfold clampReal; push_cast at h2; rw [max_eq_left (by linarith)]; exact min_eq_right h2
    rw [roundReal, e] at h1
    have : truncReal 32760 = 32760 := by
      have := truncReal_div 32760 1 (by norm_num); simpa using this
    omega

/-- Every rounded value is within the clamp. -/
theorem clampTrunc_bounds (n d : Int) (hd : 0 < d) : -32760 ≤ clampTrunc n d ∧ clampTrunc n d ≤ 32760 := by
  rw [clampTrunc_eq n d hd]
  exact roundReal_bounds _

theorem roundAt_bounds (c : Config) (hc : 0 < c.scaleDen) (g : GainStep) (K : Nat) (a : Int) :
    -32760 ≤ roundAt c g K a ∧ roundAt c g K a ≤ 32760 :=
  clampTrunc_bounds _ _ (by positivity)

theorem roundAt_eq (c : Config) (hc : 0 < c.scaleDen) (g : GainStep) (K : Nat) (a : Int) :
    roundAt c g K a = roundReal ((gainQuarters g * c.scaleNum : ℝ) / (8 * c.scaleDen) * (a / 2 ^ K)) := by
  rw [roundAt, clampTrunc_eq _ _ (by positivity)]
  congr 1
  push_cast
  field_simp

theorem roundAt_le (c : Config) (hc : 0 < c.scaleDen) (g : GainStep) (K : Nat) (a : Int) (s : ℝ) (h : (a : ℝ) ≤ 2 ^ K * s) :
    roundAt c g K a ≤ roundReal ((gainQuarters g * c.scaleNum : ℝ) / (8 * c.scaleDen) * s) := by
  rw [roundAt_eq c hc]
  refine roundReal_mono (mul_le_mul_of_nonneg_left ?_ (by positivity))
  rw [div_le_iff₀ (by positivity)]; linarith

theorem le_roundAt (c : Config) (hc : 0 < c.scaleDen) (g : GainStep) (K : Nat) (a : Int) (s : ℝ) (h : 2 ^ K * s ≤ a) :
    roundReal ((gainQuarters g * c.scaleNum : ℝ) / (8 * c.scaleDen) * s) ≤ roundAt c g K a := by
  rw [roundAt_eq c hc]
  refine roundReal_mono (mul_le_mul_of_nonneg_left ?_ (by positivity))
  rw [le_div_iff₀ (by positivity)]; linarith

end Sys2Proof.Laws
end

