-- ==== Sys2Proof/Laws/Sine.lean ====
section
/-!
SUPPORT. The fixed-point sine meets its error bound: `piFix`, `angleFix`, `sinFix`, `sinBall` and `sumBall` against the
real π and the real sine.
-/

namespace Sys2Proof.Laws

open Sys2Proof.Machine Finset

/-! ### Series summed in rounded-down terms -/

theorem nat_div_error (a b : Nat) : |((a / b : Nat) : ℝ) - (a : ℝ) / b| ≤ 1 := by
  rw [abs_sub_comm, abs_of_nonneg (sub_nonneg.mpr Nat.cast_div_le)]
  rcases Nat.eq_zero_or_pos b with rfl | hb
  · simp
  · have h : (a : ℝ) < ((a / b : Nat) + 1) * b := by exact_mod_cast Nat.lt_mul_of_div_lt (Nat.lt_succ_self _) hb
    have := (div_lt_iff₀ (by exact_mod_cast hb : (0 : ℝ) < b)).mpr h
    linarith

/-- One alternating step of a series summed in rounded-down terms. -/
theorem alternating_step {t : Nat} {r q e s : ℝ} (hq : |q - r| ≤ 1) (hs : |e - s| ≤ t) :
    |(q - e) - (r - s)| ≤ ((t + 1 : Nat) : ℝ) := by
  push_cast
  rw [abs_le] at *
  constructor <;> linarith [hq.1, hq.2, hs.1, hs.2]

theorem atanInvFix_error (s d2 : Nat) : ∀ t i den : Nat,
    |(atanInvFix s d2 t i den : ℝ) - ∑ j ∈ range t, (-1) ^ j * ((s : ℝ) / ((2 * (i + j) + 1) * (den * d2 ^ j)))| ≤ t
  | 0, _, _ => by simp [atanInvFix]
  | t + 1, i, den => by
    have ih := atanInvFix_error s d2 t (i + 1) (den * d2)
    have h0 := nat_div_error s ((2 * i + 1) * den)
    rw [sum_range_succ']
    have := alternating_step h0 ih
    convert this using 2
    simp only [atanInvFix, Int.cast_sub, Int.cast_natCast]
    rw [sub_right_inj, add_comm, sub_eq_add_neg, ← sum_neg_distrib]
    congr 1
    · simp
    · refine sum_congr rfl fun j _ => ?_
      push_cast
      rw [pow_succ, pow_succ, mul_neg_one, neg_mul, neg_inj]
      congr 2
      ring

theorem sinSum_error (x2 d2 : Nat) : ∀ t i num den : Nat, 
    |(sinSum x2 d2 t i num den : ℝ) - ∑ j ∈ range t, (-1) ^ j *
      ((num * x2 ^ j : ℝ) / (den * d2 ^ j * ((2 * (i + j) + 1).factorial / (2 * i + 1).factorial)))| ≤ t
  | 0, _, _, _ => by simp [sinSum]
  | t + 1, i, num, den => by
    have ih := sinSum_error x2 d2 t (i + 1) (num * x2) (den * (d2 * ((2 * i + 2) * (2 * i + 3))))
    have h0 := nat_div_error num den
    rw [sum_range_succ']
    have := alternating_step h0 ih
    have hf : ((2 * i + 1).factorial : ℝ) ≠ 0 := by positivity
    convert this using 2
    simp only [sinSum, Int.cast_sub, Int.cast_natCast]
    rw [sub_right_inj, add_comm, sub_eq_add_neg, ← sum_neg_distrib]
    congr 1
    · simp [hf]
    · refine sum_congr rfl fun j _ => ?_
      have e : ((2 * (i + 1) + 1).factorial : ℝ) = (2 * i + 3) * (2 * i + 2) * (2 * i + 1).factorial := by
        rw [show 2 * (i + 1) + 1 = 2 * i + 1 + 1 + 1 by ring, Nat.factorial_succ, Nat.factorial_succ]
        push_cast; ring
      rw [e, pow_succ, pow_succ, pow_succ, show 2 * (i + (j + 1)) + 1 = 2 * (i + 1 + j) + 1 by ring]
      rw [mul_neg_one, neg_mul, neg_inj]
      push_cast
      congr 2
      · ring
      · field_simp

theorem partial_sum_error {f : Nat → ℝ} {a C : ℝ} {t : Nat} (h : HasSum f a)
    (hb : ∀ j, |f (j + t)| ≤ C * (1 / 2) ^ j) : |∑ i ∈ range t, f i - a| ≤ 2 * C := by
  have h1 := (hasSum_nat_add_iff' t).mpr h
  have h2 := hasSum_geometric_two.mul_left C
  rw [abs_sub_comm]
  have := h1.norm_le_of_bounded h2 (by simpa using hb)
  simpa [mul_comm] using this

theorem sum_of_rounded_series {f : Nat → ℝ} {a C e : ℝ} {t s : Nat} {z : ℝ} (h : HasSum f a)
    (hb : ∀ j, |f (j + t)| ≤ C * (1 / 2) ^ j) (hz : |z - ∑ j ∈ range t, s * f j| ≤ e) :
    |z - s * a| ≤ e + s * (2 * C) := by
  have h1 := partial_sum_error h hb
  rw [← mul_sum] at hz
  have h2 : |(s : ℝ) * ∑ j ∈ range t, f j - s * a| ≤ s * (2 * C) := by
    rw [← mul_sub, abs_mul, abs_of_nonneg (Nat.cast_nonneg s)]
    exact mul_le_mul_of_nonneg_left h1 (Nat.cast_nonneg s)
  calc |z - s * a| = |(z - s * ∑ j ∈ range t, f j) + (s * ∑ j ∈ range t, f j - s * a)| := by ring_nf
    _ ≤ _ := (abs_add_le _ _).trans (add_le_add hz h2)

theorem arctan_tail (d : Nat) (hd : 5 ≤ d) (t j : Nat) :
    |(-1 : ℝ) ^ (j + t) * (d : ℝ)⁻¹ ^ (2 * (j + t) + 1) / ((2 * (j + t) + 1 : Nat) : ℝ)| ≤ (1 / 16) ^ t * (1 / 2) ^ j := by
  have h5 : (d : ℝ)⁻¹ ≤ 1 / 5 := by
    rw [inv_le_comm₀ (by positivity) (by norm_num)]; simpa using (by exact_mod_cast hd : (5 : ℝ) ≤ d)
  have h0 : (0 : ℝ) ≤ (d : ℝ)⁻¹ := by positivity
  rw [abs_div, abs_mul, abs_pow, abs_neg, abs_one, one_pow, one_mul, abs_of_nonneg (pow_nonneg h0 _), Nat.abs_cast]
  calc (d : ℝ)⁻¹ ^ (2 * (j + t) + 1) / ((2 * (j + t) + 1 : Nat) : ℝ)
      ≤ (d : ℝ)⁻¹ ^ (2 * (j + t) + 1) := div_le_self (pow_nonneg h0 _) (by push_cast; linarith [(by positivity : (0 : ℝ) ≤ j), (by positivity : (0 : ℝ) ≤ t)])
    _ ≤ (1 / 5) ^ (2 * (j + t) + 1) := pow_le_pow_left₀ h0 h5 _
    _ ≤ (1 / 5) ^ (2 * (j + t)) := pow_le_pow_of_le_one (by norm_num) (by norm_num) (Nat.le_succ _)
    _ = (1 / 25) ^ t * (1 / 25) ^ j := by rw [pow_mul, pow_add, mul_comm]; norm_num
    _ ≤ (1 / 16) ^ t * (1 / 2) ^ j := by gcongr <;> norm_num

theorem atanInvFix_arctan (K d : Nat) (hd : 5 ≤ d) :
    |(atanInvFix (2 ^ K) (d * d) (K / 4 + 1) 0 d : ℝ) - 2 ^ K * Real.arctan (d : ℝ)⁻¹| ≤ K / 4 + 2 := by
  have hd0 : (d : ℝ) ≠ 0 := by positivity
  have h5 : (d : ℝ)⁻¹ ≤ 1 / 5 := by
    rw [inv_le_comm₀ (by positivity) (by norm_num)]; simpa using (by exact_mod_cast hd : (5 : ℝ) ≤ d)
  have hsum := Real.hasSum_arctan (x := (d : ℝ)⁻¹)
    (by rw [Real.norm_of_nonneg (by positivity)]; linarith)
  have hz := atanInvFix_error (2 ^ K) (d * d) (K / 4 + 1) 0 d
  have h := sum_of_rounded_series (s := 2 ^ K) (e := (K / 4 + 1 : Nat)) (z := atanInvFix (2 ^ K) (d * d) (K / 4 + 1) 0 d) hsum
    (arctan_tail d hd (K / 4 + 1)) (by
      convert hz using 3
      refine sum_congr rfl fun j _ => ?_
      have e : (d : ℝ)⁻¹ ^ (2 * j + 1) = ((d : ℝ) * ((d : ℝ) * d) ^ j)⁻¹ := by
        rw [inv_pow, pow_succ, pow_mul, pow_two, mul_comm]
      rw [e]
      push_cast
      field_simp
      ring)
  have hK : (2 : ℝ) ^ K * (2 * (1 / 16) ^ (K / 4 + 1)) ≤ 1 := by
    have : (2 : ℝ) ^ K * 2 ≤ 16 ^ (K / 4 + 1) := by
      rw [← pow_succ, show (16 : ℝ) = 2 ^ 4 by norm_num, ← pow_mul]
      exact pow_le_pow_right₀ (by norm_num) (by omega)
    rw [one_div, inv_pow, ← mul_assoc, ← div_eq_mul_inv]
    exact div_le_one_of_le₀ this (by positivity)
  have hq : ((K / 4 + 1 : Nat) : ℝ) ≤ K / 4 + 1 := by push_cast; gcongr; exact Nat.cast_div_le
  push_cast at h hq ⊢
  linarith

theorem piFix_error (K : Nat) : |(piFix K : ℝ) - 2 ^ K * Real.pi| ≤ 5 * K + 40 := by
  have h5 := atanInvFix_arctan K 5 (by norm_num)
  have h239 := atanInvFix_arctan K 239 (by norm_num)
  have hm := Real.four_mul_arctan_inv_5_sub_arctan_inv_239
  have e : 2 ^ K * Real.pi = 16 * (2 ^ K * Real.arctan (5 : ℝ)⁻¹) - 4 * (2 ^ K * Real.arctan (239 : ℝ)⁻¹) := by
    linear_combination (-(4 : ℝ)) * 2 ^ K * hm
  rw [e, piFix]
  push_cast
  norm_num at h5 h239
  rw [abs_le] at *
  constructor <;> linarith [h5.1, h5.2, h239.1, h239.2]

/-- The argument `2π k / 800000` of a sine. -/
noncomputable def argOf (k : Nat) : ℝ := 2 * Real.pi * k / 800000

theorem argOf_nonneg (k : Nat) : 0 ≤ argOf k := by unfold argOf; positivity

theorem argOf_lt (k : Nat) (hk : k < 800000) : argOf k ≤ 2 * Real.pi := by
  unfold argOf
  have : (k : ℝ) ≤ 800000 := by exact_mod_cast hk.le
  rw [div_le_iff₀ (by norm_num)]
  exact mul_le_mul_of_nonneg_left this (by positivity)

theorem int_div_error (a : Int) (b : Nat) (hb : 0 < b) : |((a / b : Int) : ℝ) - a / b| ≤ 1 := by
  have hb' : (0 : ℝ) < b := by exact_mod_cast hb
  have h1 : (a / b : Int) * (b : Int) ≤ a := Int.ediv_mul_le _ (by omega)
  have h2 : a < (a / b + 1 : Int) * (b : Int) := Int.lt_ediv_add_one_mul_self _ (by omega)
  have h1' : ((a / b : Int) : ℝ) * b ≤ a := by exact_mod_cast h1
  have h2' : (a : ℝ) < (((a / b : Int) : ℝ) + 1) * b := by exact_mod_cast h2
  have g1 := (le_div_iff₀ hb').mpr h1'
  have g2 := (div_lt_iff₀ hb').mpr h2'
  rw [abs_le]; constructor <;> linarith

theorem toNat_error (z : Int) (w e : ℝ) (hw : 0 ≤ w) (h : |(z : ℝ) - w| ≤ e) : |(z.toNat : ℝ) - w| ≤ e := by
  rcases le_total 0 z with hz | hz
  · have : ((z.toNat : Int) : ℝ) = z := by exact_mod_cast Int.toNat_of_nonneg hz
    rw [Int.cast_natCast] at this
    rwa [this]
  · rw [Int.toNat_of_nonpos hz]
    have hz' : (z : ℝ) ≤ 0 := by exact_mod_cast hz
    rw [abs_le] at *
    push_cast
    constructor <;> linarith [h.1, h.2]

theorem angleFix_error (K k : Nat) (hk : k < 800000) : |(angleFix K k : ℝ) - 2 ^ K * argOf k| ≤ 10 * K + 81 := by
  unfold angleFix turn
  refine toNat_error _ _ _ (mul_nonneg (by positivity) (argOf_nonneg k)) ?_
  have h1 := int_div_error (2 * piFix K * k) 800000 (by norm_num)
  have h2 := piFix_error K
  have hk' : (k : ℝ) / 800000 ≤ 1 := by
    rw [div_le_one (by norm_num)]; exact_mod_cast hk.le
  have h3 : |((2 * piFix K * k : Int) : ℝ) / ((800000 : Nat) : ℝ) - 2 ^ K * argOf k| ≤ 2 * (5 * K + 40) := by
    have e : ((2 * piFix K * k : Int) : ℝ) / ((800000 : Nat) : ℝ) - 2 ^ K * argOf k
        = (2 * (piFix K - 2 ^ K * Real.pi)) * (k / 800000) := by
      unfold argOf; push_cast; ring
    rw [e, abs_mul, abs_mul, abs_two, abs_of_nonneg (by positivity : (0 : ℝ) ≤ (k : ℝ) / 800000)]
    calc _ ≤ 2 * (5 * (K : ℝ) + 40) * 1 := by gcongr
      _ = _ := by ring
  have := abs_sub_le (((2 * piFix K * k / (800000 : Nat) : Int)) : ℝ) (((2 * piFix K * k : Int) : ℝ) / ((800000 : Nat) : ℝ)) (2 ^ K * argOf k)
  refine this.trans ?_
  linarith

theorem sin_tail {y : ℝ} (hy0 : 0 ≤ y) (hy : y ≤ 7) {t : Nat} (ht : 24 ≤ t) (j : Nat) :
    |(-1 : ℝ) ^ (j + t) * y ^ (2 * (j + t) + 1) / ((2 * (j + t) + 1).factorial : ℝ)|
      ≤ 7 ^ (2 * t + 1) / ((2 * t + 1).factorial : ℝ) * (1 / 2) ^ j := by
  rw [abs_div, abs_mul, abs_pow, abs_neg, abs_one, one_pow, one_mul, abs_of_nonneg (pow_nonneg hy0 _), Nat.abs_cast]
  refine (div_le_div_of_nonneg_right (pow_le_pow_left₀ hy0 hy _) (by positivity)).trans ?_
  induction j with
  | zero => simp
  | succ j ih =>
    have e : ((2 * (j + 1 + t) + 1).factorial : ℝ) = (2 * (j + t) + 3) * (2 * (j + t) + 2) * ((2 * (j + t) + 1).factorial : ℝ) := by
      rw [show 2 * (j + 1 + t) + 1 = 2 * (j + t) + 1 + 1 + 1 by ring, Nat.factorial_succ, Nat.factorial_succ]
      push_cast; ring
    have e2 : (7 : ℝ) ^ (2 * (j + 1 + t) + 1) / ((2 * (j + 1 + t) + 1).factorial : ℝ)
        = 7 ^ (2 * (j + t) + 1) / ((2 * (j + t) + 1).factorial : ℝ) * (49 / ((2 * (j + t) + 3) * (2 * (j + t) + 2))) := by
      rw [e, show 2 * (j + 1 + t) + 1 = (2 * (j + t) + 1) + 2 by ring, pow_add]
      field_simp
      norm_num
    have h3 : (49 : ℝ) / ((2 * (j + t) + 3) * (2 * (j + t) + 2)) ≤ 1 / 2 := by
      have : (24 : ℝ) ≤ t := by exact_mod_cast ht
      have hj : (0 : ℝ) ≤ j := by positivity
      rw [div_le_div_iff₀ (by positivity) (by norm_num)]
      nlinarith
    rw [e2, pow_succ (1 / 2 : ℝ), ← mul_assoc]
    exact mul_le_mul ih h3 (by positivity) (by positivity)

theorem factorial_bound (m : Nat) (hm : 16 ≤ m) : 2 ^ (4 * m + 4) * 7 ^ (2 * m + 17) ≤ (2 * m + 17).factorial := by
  induction m, hm using Nat.le_induction with
  | base => decide +kernel
  | succ m hm ih =>
    rw [show 2 * (m + 1) + 17 = 2 * m + 17 + 1 + 1 by ring, Nat.factorial_succ, Nat.factorial_succ,
      show 4 * (m + 1) + 4 = 4 * m + 4 + 4 by ring, pow_add, pow_succ 7, pow_succ 7]
    have : 784 ≤ (2 * m + 17 + 1 + 1) * (2 * m + 17 + 1) := by nlinarith
    calc _ = 784 * (2 ^ (4 * m + 4) * 7 ^ (2 * m + 17)) := by ring
      _ ≤ ((2 * m + 17 + 1 + 1) * (2 * m + 17 + 1)) * (2 * m + 17).factorial := Nat.mul_le_mul this ih
      _ = _ := by ring

theorem small_error (K : Nat) (hK : 64 ≤ K) : (10 * K + 81) * 2 ≤ 2 ^ K := by
  induction K, hK using Nat.le_induction with
  | base => decide +kernel
  | succ K hK ih => rw [pow_succ]; omega

theorem sinFix_error (K k : Nat) (hK : 64 ≤ K) (hk : k < 800000) :
    |(sinFix K k : ℝ) - 2 ^ K * Real.sin (argOf k)| ≤ sinErr K := by
  set X := angleFix K k with hX
  have hP : (0 : ℝ) < 2 ^ K := by positivity
  have hang := angleFix_error K k hk
  rw [← hX] at hang
  set y : ℝ := X / 2 ^ K with hy
  have hXy : (X : ℝ) = 2 ^ K * y := by rw [hy]; field_simp
  have hy0 : 0 ≤ y := by positivity
  have hdiff : 2 ^ K * |y - argOf k| ≤ 10 * K + 81 := by
    rw [hXy, ← mul_sub, abs_mul, abs_of_pos hP] at hang; exact hang
  have hsmall : ((10 * K + 81) * 2 : ℝ) ≤ 2 ^ K := by exact_mod_cast small_error K hK
  have hy7 : y ≤ 7 := by
    have h1 : |y - argOf k| ≤ 1 / 2 := by
      by_contra hc
      push Not at hc
      nlinarith
    have := argOf_lt k hk
    have hpi := Real.pi_lt_d2
    linarith [(abs_le.mp h1).2]
  have hz := sinSum_error (X * X) (2 ^ (2 * K)) (K / 4 + 8) 0 X 1
  have h := sum_of_rounded_series (s := 2 ^ K) (e := (K / 4 + 8 : Nat)) (z := sinFix K k) (Real.hasSum_sin y)
    (sin_tail hy0 hy7 (t := K / 4 + 8) (by omega)) (by
      unfold sinFix
      rw [← hX]
      convert hz using 3
      refine sum_congr rfl fun j _ => ?_
      push_cast
      rw [hXy]
      simp only [zero_add, Nat.factorial_one, Nat.cast_one, div_one, one_mul]
      rw [show ((2 : ℝ) ^ (2 * K)) ^ j = (2 ^ K * 2 ^ K) ^ j by rw [two_mul, pow_add]]
      rw [show (2 ^ K * y * (2 ^ K * y)) ^ j = (2 ^ K * 2 ^ K) ^ j * (y * y) ^ j by rw [← mul_pow]; ring]
      rw [pow_succ y, pow_mul, pow_two]
      field_simp)
  have htail : (2 : ℝ) ^ K * (2 * (7 ^ (2 * (K / 4 + 8) + 1) / ((2 * (K / 4 + 8) + 1).factorial : ℝ))) ≤ 1 := by
    have hf := factorial_bound (K / 4) (by omega)
    have hf' : (2 : ℝ) ^ (4 * (K / 4) + 4) * 7 ^ (2 * (K / 4) + 17) ≤ ((2 * (K / 4) + 17).factorial : ℝ) := by exact_mod_cast hf
    rw [show 2 * (K / 4 + 8) + 1 = 2 * (K / 4) + 17 by ring, ← mul_assoc, ← pow_succ, ← mul_div_assoc]
    refine div_le_one_of_le₀ (le_trans ?_ hf') (by positivity)
    exact mul_le_mul_of_nonneg_right (pow_le_pow_right₀ (by norm_num) (by omega)) (by positivity)
  have hlip : |2 ^ K * Real.sin y - 2 ^ K * Real.sin (argOf k)| ≤ 10 * K + 81 := by
    rw [← mul_sub, abs_mul, abs_of_pos hP]
    exact (mul_le_mul_of_nonneg_left (Real.abs_sin_sub_sin_le _ _) hP.le).trans hdiff
  have hq : ((K / 4 : Nat) : ℝ) ≤ K / 4 := Nat.cast_div_le
  have hK' : (64 : ℝ) ≤ K := by exact_mod_cast hK
  have htri := abs_sub_le (sinFix K k : ℝ) (2 ^ K * Real.sin y) (2 ^ K * Real.sin (argOf k))
  unfold sinErr
  push_cast at h hq ⊢
  linarith

/-! ### The sums of sines and their error bounds -/

theorem argOf_add_half (k : Nat) : Real.sin (argOf (k + 400000)) = -Real.sin (argOf k) := by
  rw [show argOf (k + 400000) = argOf k + Real.pi by unfold argOf; push_cast; ring, Real.sin_add_pi]

theorem sin_argOf_halfTurn {k : Nat} (hk : k < 800000) : Real.sin (argOf (halfTurn k)) = -Real.sin (argOf k) := by
  unfold halfTurn turn
  rcases Nat.lt_or_ge k 400000 with h | h
  · rw [Nat.mod_eq_of_lt (by omega), argOf_add_half]
  · have e : (k + 400000) % 800000 = k - 400000 := by omega
    have := argOf_add_half (k - 400000)
    rw [show k - 400000 + 400000 = k by omega] at this
    rw [e, this, neg_neg]

theorem sinBall_error (K k : Nat) (hK : 64 ≤ K) (hk : k < 800000) :
    |((sinBall K k).1 : ℝ) - 2 ^ K * Real.sin (argOf k)| ≤ (sinBall K k).2 := by
  unfold sinBall
  split_ifs with h0 h1 h2
  · rcases h0 with rfl | rfl
    · simp [argOf]
    · rw [show argOf 400000 = Real.pi by unfold argOf; push_cast; ring]; simp
  · subst h1
    rw [show argOf 200000 = Real.pi / 2 by unfold argOf; push_cast; ring]; simp
  · subst h2
    rw [show argOf 600000 = Real.pi / 2 + Real.pi by unfold argOf; push_cast; ring, Real.sin_add_pi]; simp
  · exact sinFix_error K k hK hk

theorem sin54_sub_sin18 : Real.sin (3 * Real.pi / 10) - Real.sin (Real.pi / 10) = 1 / 2 := by
  have h1 : Real.sin (3 * Real.pi / 10) = Real.cos (Real.pi / 5) := by
    rw [← Real.cos_pi_div_two_sub]; congr 1; ring
  have h2 : Real.sin (Real.pi / 10) = Real.cos (2 * (Real.pi / 5)) := by
    rw [← Real.cos_pi_div_two_sub]; congr 1; ring
  rw [h1, h2, Real.cos_two_mul, Real.cos_pi_div_five]
  have : Real.sqrt 5 ^ 2 = 5 := Real.sq_sqrt (by norm_num)
  nlinarith

theorem sin_of_isSin54 {k : Nat} (h : isSin54 k = true) : Real.sin (argOf k) = Real.sin (3 * Real.pi / 10) := by
  simp only [isSin54, Bool.or_eq_true, beq_iff_eq] at h
  rcases h with rfl | rfl
  · congr 1; unfold argOf; push_cast; ring
  · rw [← Real.sin_pi_sub]; congr 1; unfold argOf; push_cast; ring

theorem sin_of_isSin18 {k : Nat} (h : isSin18 k = true) : Real.sin (argOf k) = Real.sin (Real.pi / 10) := by
  simp only [isSin18, Bool.or_eq_true, beq_iff_eq] at h
  rcases h with rfl | rfl
  · congr 1; unfold argOf; push_cast; ring
  · rw [← Real.sin_pi_sub]; congr 1; unfold argOf; push_cast; ring

theorem sum_of_sumIsHalf {kH kL : Nat} (hH : kH < 800000) (hL : kL < 800000) (h : sumIsHalf kH kL = true) :
    Real.sin (argOf kH) + Real.sin (argOf kL) = 1 / 2 := by
  simp only [sumIsHalf, Bool.or_eq_true, Bool.and_eq_true] at h
  have hp := sin54_sub_sin18
  rcases h with ⟨h1, h2⟩ | ⟨h1, h2⟩
  · have e1 := sin_of_isSin54 h1
    have e2 := sin_of_isSin18 h2
    rw [sin_argOf_halfTurn hL] at e2
    linarith
  · have e1 := sin_of_isSin18 h1
    have e2 := sin_of_isSin54 h2
    rw [sin_argOf_halfTurn hH] at e1
    linarith

theorem halfTurn_lt (k : Nat) : halfTurn k < 800000 := Nat.mod_lt _ (by norm_num [turn])

theorem sumBall_error (K kH kL : Nat) (hK : 64 ≤ K) (hH : kH < 800000) (hL : kL < 800000) :
    |((sumBall K kH kL).1 : ℝ) - 2 ^ K * (Real.sin (argOf kH) + Real.sin (argOf kL))| ≤ (sumBall K kH kL).2 := by
  have hpow : (2 : ℝ) ^ K = 2 ^ (K - 1) * 2 := by rw [← pow_succ]; congr 1; omega
  unfold sumBall
  split_ifs with h0 h1
  · rw [sum_of_sumIsHalf hH hL h0, hpow]; push_cast; ring_nf; simp
  · have := sum_of_sumIsHalf (halfTurn_lt kH) (halfTurn_lt kL) h1
    rw [sin_argOf_halfTurn hH, sin_argOf_halfTurn hL] at this
    rw [show Real.sin (argOf kH) + Real.sin (argOf kL) = -(1 / 2) by linarith, hpow]
    push_cast; ring_nf; simp
  · have a := sinBall_error K kH hK hH
    have b := sinBall_error K kL hK hL
    push_cast
    rw [abs_le] at *
    constructor <;> linarith [a.1, a.2, b.1, b.2]

theorem sumBall_radius (K kH kL : Nat) : (sumBall K kH kL).2 ≤ 32 * K := by
  have h : ∀ k, (sinBall K k).2 ≤ 16 * K := fun k => by
    unfold sinBall sinErr; split_ifs <;> simp
  unfold sumBall
  split_ifs
  · simp
  · simp
  · have := h kH; have := h kL; simp only; omega

end Sys2Proof.Laws
end

