-- ==== Sys2Proof/Laws/Separation.lean ====
section
/-!
SUPPORT. A sample's real value is an integer or keeps a known distance from every integer: less an integer it is the value
of an integer polynomial at a root of unity, and the norm of such a value is an integer.
-/

namespace Sys2Proof.Laws

open Polynomial

/-- A nonzero value of an integer polynomial at a primitive `n`-th root of unity is not small: its norm is an integer. -/
theorem root_value_bound_in {n : Nat} [NeZero n] (L : Type) [Field L] [CharZero L] [Algebra ℚ L] [IsCyclotomicExtension {n} ℚ L]
    {ω : ℂ} (hω : IsPrimitiveRoot ω n) (q : ℤ[X]) {C : ℝ} (hC : 1 ≤ C)
    (hq : ∀ z : ℂ, ‖z‖ = 1 → ‖aeval z q‖ ≤ C) (h0 : aeval ω q ≠ 0) : 1 ≤ ‖aeval ω q‖ * C ^ n := by
  classical
  have : FiniteDimensional ℚ L := IsCyclotomicExtension.finiteDimensional {n} ℚ L
  have hζ := IsCyclotomicExtension.zeta_spec n ℚ L
  set ζ : L := IsCyclotomicExtension.zeta n ℚ L
  have hirr : Irreducible (cyclotomic n ℚ) := cyclotomic.irreducible_rat (NeZero.pos n)
  let φ : L →ₐ[ℚ] ℂ := (hζ.embeddingsEquivPrimitiveRoots ℂ hirr).symm
    ⟨ω, (mem_primitiveRoots (NeZero.pos n)).mpr hω⟩
  have hφ : φ ζ = ω := by
    have := hζ.embeddingsEquivPrimitiveRoots_apply_coe ℂ hirr φ
    simpa [φ] using this.symm
  set x : L := aeval ζ q
  have hσ : ∀ σ : L →ₐ[ℚ] ℂ, σ x = aeval (σ ζ) q := fun σ =>
    (aeval_algHom_apply (σ.restrictScalars ℤ) ζ q).symm
  have hφx : φ x = aeval ω q := by rw [hσ, hφ]
  have hx0 : x ≠ 0 := fun h => h0 (by rw [← hφx, h, map_zero])
  have hint : IsIntegral ℤ x :=
    adjoin_le_integralClosure (hζ.isIntegral (NeZero.pos n)) (aeval_mem_adjoin_singleton ℤ ζ)
  have hnorm : IsIntegral ℤ (Algebra.norm ℚ x) := Algebra.isIntegral_norm ℚ hint
  obtain ⟨N, hN⟩ := IsIntegrallyClosed.isIntegral_iff.mp hnorm
  have hN0 : N ≠ 0 := by
    rintro rfl
    rw [map_zero] at hN
    exact hx0 (Algebra.norm_eq_zero_iff.mp hN.symm)
  have hprod := Algebra.norm_eq_prod_embeddings ℚ ℂ x
  have habs : 1 ≤ ‖∏ σ : L →ₐ[ℚ] ℂ, σ x‖ := by
    rw [← hprod, ← hN]
    have : (1 : ℝ) ≤ |(N : ℝ)| := by exact_mod_cast Int.one_le_abs hN0
    simpa using this
  rw [norm_prod, ← Finset.mul_prod_erase _ _ (Finset.mem_univ φ), hφx] at habs
  refine habs.trans (mul_le_mul_of_nonneg_left ?_ (norm_nonneg _))
  have hone : ∀ σ : L →ₐ[ℚ] ℂ, ‖σ x‖ ≤ C := fun σ => by
    rw [hσ]
    refine hq _ ?_
    have : (σ ζ) ^ n = 1 := by rw [← map_pow, hζ.pow_eq_one, map_one]
    exact Complex.norm_eq_one_of_pow_eq_one this (NeZero.ne n)
  calc _ ≤ ∏ _σ ∈ Finset.univ.erase φ, C := Finset.prod_le_prod (fun _ _ => norm_nonneg _) (fun σ _ => hone σ)
    _ = C ^ (Finset.univ.erase φ).card := by simp
    _ ≤ C ^ n := pow_le_pow_right₀ hC ?_
  rw [Finset.card_erase_of_mem (Finset.mem_univ _), Finset.card_univ, AlgHom.card,
    IsCyclotomicExtension.finrank L hirr]
  exact (Nat.sub_le _ _).trans (Nat.totient_le n)

theorem root_value_bound {n : Nat} [NeZero n] {ω : ℂ} (hω : IsPrimitiveRoot ω n) (q : ℤ[X]) {C : ℝ} (hC : 1 ≤ C)
    (hq : ∀ z : ℂ, ‖z‖ = 1 → ‖aeval z q‖ ≤ C) (h0 : aeval ω q ≠ 0) : 1 ≤ ‖aeval ω q‖ * C ^ n :=
  have : NeZero ((n : Nat) : ℚ) := ⟨by exact_mod_cast NeZero.ne n⟩
  @root_value_bound_in n _ (CyclotomicField n ℚ) _ _ (CyclotomicField.algebra n ℚ) (CyclotomicField.isCyclotomicExtension n ℚ) ω hω q C hC hq h0

/-- The primitive root of unity behind the sine arguments. -/
noncomputable def unitRoot : ℂ := Complex.exp (2 * Real.pi * Complex.I / (800000 : Nat))

theorem unitRoot_pow (k : Nat) : unitRoot ^ k = Complex.exp (argOf k * Complex.I) := by
  rw [unitRoot, ← Complex.exp_nat_mul]
  congr 1
  unfold argOf
  push_cast
  ring

theorem unitRoot_pow_quarter : unitRoot ^ 600000 = -Complex.I := by
  rw [unitRoot_pow, show ((argOf 600000 : ℝ) : ℂ) * Complex.I = -(Real.pi / 2 : ℝ) * Complex.I + 2 * Real.pi * Complex.I by
    unfold argOf; push_cast; ring, Complex.exp_add, Complex.exp_two_pi_mul_I]
  rw [show (-((Real.pi / 2 : ℝ) : ℂ) * Complex.I) = -(Real.pi / 2 * Complex.I) by push_cast; ring, Complex.exp_neg,
    Complex.exp_pi_div_two_mul_I]
  simp

theorem unitRoot_pow_compl {k : Nat} (hk : k ≤ 800000) : unitRoot ^ (800000 - k) = Complex.exp (-(argOf k * Complex.I)) := by
  rw [unitRoot_pow]
  have : ((argOf (800000 - k) : ℝ) : ℂ) * Complex.I = -(argOf k * Complex.I) + 2 * Real.pi * Complex.I := by
    unfold argOf; push_cast [Nat.cast_sub hk]; ring
  rw [this, Complex.exp_add, Complex.exp_two_pi_mul_I, mul_one]

theorem two_sin_eq {k : Nat} (hk : k ≤ 800000) :
    ((2 * Real.sin (argOf k) : ℝ) : ℂ) = unitRoot ^ 600000 * (unitRoot ^ k - unitRoot ^ (800000 - k)) := by
  rw [unitRoot_pow_compl hk, unitRoot_pow_quarter, unitRoot_pow]
  push_cast
  rw [Complex.sin]
  rw [show -((argOf k : ℝ) : ℂ) * Complex.I = -(argOf k * Complex.I) by ring]
  ring

/-- The integer polynomial whose value at the root of unity is a sample's real value less an integer. -/
noncomputable def samplePoly (a q kH kH' kL kL' : Nat) (m : Int) : ℤ[X] :=
  (a : ℤ[X]) * X ^ q * (X ^ kH - X ^ kH' + (X ^ kL - X ^ kL')) - (m : ℤ[X])

theorem samplePoly_value (a q kH kH' kL kL' : Nat) (m : Int) (z : ℂ) : aeval z (samplePoly a q kH kH' kL kL' m) =
    (a : ℂ) * z ^ q * (z ^ kH - z ^ kH' + (z ^ kL - z ^ kL')) - (m : ℂ) := by
  simp [samplePoly]

theorem samplePoly_bound (a q kH kH' kL kL' : Nat) (m : Int) (z : ℂ) (hz : ‖z‖ = 1) :
    ‖aeval z (samplePoly a q kH kH' kL kL' m)‖ ≤ 4 * a + |(m : ℝ)| := by
  have hp : ∀ n : Nat, ‖z ^ n‖ = 1 := fun n => by rw [norm_pow, hz, one_pow]
  rw [samplePoly_value]
  refine (norm_sub_le _ _).trans ?_
  rw [norm_mul, norm_mul, hp, Complex.norm_natCast, Complex.norm_intCast, mul_one]
  have h4 : ‖z ^ kH - z ^ kH' + (z ^ kL - z ^ kL')‖ ≤ 4 := by
    refine (norm_add_le _ _).trans ?_
    have h1 := norm_sub_le (z ^ kH) (z ^ kH')
    have h2 := norm_sub_le (z ^ kL) (z ^ kL')
    rw [hp, hp] at h1 h2
    linarith
  nlinarith [(Nat.cast_nonneg a : (0 : ℝ) ≤ a)]

theorem sample_separation (a kH kL : Nat) (m : Int) (hH : kH ≤ 800000) (hL : kL ≤ 800000)
    (hb : 4 * a + |(m : ℝ)| ≤ 2 ^ 16)
    (hne : (a : ℝ) * (2 * Real.sin (argOf kH) + 2 * Real.sin (argOf kL)) ≠ m) :
    1 ≤ |(a : ℝ) * (2 * Real.sin (argOf kH) + 2 * Real.sin (argOf kL)) - m| * (2 ^ 16) ^ 800000 := by
  have hω : IsPrimitiveRoot unitRoot 800000 := Complex.isPrimitiveRoot_exp 800000 (by norm_num)
  have e : aeval unitRoot (samplePoly a 600000 kH (800000 - kH) kL (800000 - kL) m)
      = (((a : ℝ) * (2 * Real.sin (argOf kH) + 2 * Real.sin (argOf kL)) - m : ℝ) : ℂ) := by
    rw [samplePoly_value, mul_assoc, mul_add, ← two_sin_eq hH, ← two_sin_eq hL]
    push_cast
    ring
  have : NeZero (800000 : Nat) := ⟨by norm_num⟩
  have h := root_value_bound hω (samplePoly a 600000 kH (800000 - kH) kL (800000 - kL) m) (C := 2 ^ 16) (by norm_num)
    (fun z hz => (samplePoly_bound a 600000 kH (800000 - kH) kL (800000 - kL) m z hz).trans hb) (by
      rw [e]
      exact_mod_cast sub_ne_zero.mpr hne)
  rw [e, Complex.norm_real, Real.norm_eq_abs] at h
  exact h

end Sys2Proof.Laws
end

