-- ==== Sys2Proof/Laws/Sample.lean ====
section
/-!
SUPPORT. What `sampleAt` computes: its two bounds enclose the rounded real value at every precision, and where the last
precision leaves them apart the value is an integer, by the separation of Laws/Separation.lean.
-/

namespace Sys2Proof.Laws

open Sys2Proof.Machine

theorem gap_small : (12800 : ℝ) * (2 * (32 * 2 ^ 24)) * (2 ^ 16) ^ 800000 < 2 ^ (2 ^ 24) := by
  have h : (12800 : ℝ) * (2 * (32 * 2 ^ 24)) < 2 ^ 45 := by norm_num
  have e : (2 : ℝ) ^ 45 * (2 ^ 16) ^ 800000 = 2 ^ (45 + 16 * 800000) := by rw [← pow_mul, ← pow_add]
  have hpos : (0 : ℝ) < (2 ^ 16) ^ 800000 := pow_pos (by norm_num) _
  calc _ < (2 : ℝ) ^ 45 * (2 ^ 16) ^ 800000 := mul_lt_mul_of_pos_right h hpos
    _ = _ := e
    _ ≤ _ := pow_le_pow_right₀ (by norm_num) (by norm_num)

theorem between_bounds_is_integer (g : GainStep) (kH kL : Nat) (hH : kH < 800000) (hL : kL < 800000) (m : Int) (hm : |m| ≤ 32760)
    (K : Nat) (hK : K = 2 ^ 24) (x y : ℝ)
    (hxy : 2 ^ K * (y - x) ≤ 12800 * (2 * (32 * K)))
    (hx : x ≤ 800 * (g.toNat + 1) * (Real.sin (argOf kH) + Real.sin (argOf kL)))
    (hy : 800 * (g.toNat + 1) * (Real.sin (argOf kH) + Real.sin (argOf kL)) ≤ y) (hxm : x ≤ m) (hmy : m ≤ y) :
    800 * (g.toNat + 1) * (Real.sin (argOf kH) + Real.sin (argOf kL)) = m := by
  by_contra hne
  have hg : g.toNat < 16 := g.isLt
  have e : 800 * ((g.toNat : ℝ) + 1) * (Real.sin (argOf kH) + Real.sin (argOf kL))
      = ((400 * (g.toNat + 1) : Nat) : ℝ) * (2 * Real.sin (argOf kH) + 2 * Real.sin (argOf kL)) := by push_cast; ring
  have hb : 4 * ((400 * (g.toNat + 1) : Nat) : ℝ) + |(m : ℝ)| ≤ 2 ^ 16 := by
    have h1 : ((400 * (g.toNat + 1) : Nat) : ℝ) ≤ 6400 := by exact_mod_cast (by omega : 400 * (g.toNat + 1) ≤ 6400)
    have h2 : |(m : ℝ)| ≤ 32760 := by exact_mod_cast hm
    have h3 : (2 : ℝ) ^ 16 = 65536 := by norm_num
    linarith
  have hsep := sample_separation (400 * (g.toNat + 1)) kH kL m hH.le hL.le hb (by rw [← e]; exact hne)
  rw [← e] at hsep
  set v := 800 * ((g.toNat : ℝ) + 1) * (Real.sin (argOf kH) + Real.sin (argOf kL))
  have hv : |v - m| ≤ y - x := by rw [abs_le]; constructor <;> linarith
  have hpos : (0 : ℝ) < (2 ^ 16) ^ 800000 := pow_pos (by norm_num) _
  have hP : (0 : ℝ) < 2 ^ K := by positivity
  have h1 : (1 : ℝ) ≤ (y - x) * (2 ^ 16) ^ 800000 := hsep.trans (mul_le_mul_of_nonneg_right hv hpos.le)
  have h2 : (2 : ℝ) ^ K ≤ 12800 * (2 * (32 * K)) * (2 ^ 16) ^ 800000 := by
    calc (2 : ℝ) ^ K = 2 ^ K * 1 := by ring
      _ ≤ 2 ^ K * ((y - x) * (2 ^ 16) ^ 800000) := mul_le_mul_of_nonneg_left h1 hP.le
      _ = (2 ^ K * (y - x)) * (2 ^ 16) ^ 800000 := (mul_assoc ..).symm
      _ ≤ _ := mul_le_mul_of_nonneg_right hxy hpos.le
  have h3 := gap_small
  have hKr : (K : ℝ) = 2 ^ 24 := by exact_mod_cast hK
  rw [hKr, hK] at h2
  exact absurd h2 (not_le.mpr h3)


theorem cfg_scaleDen_pos : 0 < cfg.scaleDen := by simp [cfg]

theorem cfg_scale (g : GainStep) : (gainQuarters g * cfg.scaleNum : ℝ) / (8 * cfg.scaleDen) = 800 * (g.toNat + 1) := by
  simp [gainQuarters, cfg]; ring

theorem sample_enclosed (g : GainStep) (kH kL K : Nat) (hH : kH < 800000) (hL : kL < 800000) (hK : 64 ≤ K) :
    roundAt cfg g K ((sumBall K kH kL).1 - (sumBall K kH kL).2) ≤
      roundReal (800 * (g.toNat + 1) * (Real.sin (argOf kH) + Real.sin (argOf kL))) ∧
    roundReal (800 * (g.toNat + 1) * (Real.sin (argOf kH) + Real.sin (argOf kL))) ≤
      roundAt cfg g K ((sumBall K kH kL).1 + (sumBall K kH kL).2) := by
  have hball := abs_le.mp (sumBall_error K kH kL hK hH hL)
  rw [← cfg_scale]
  exact ⟨roundAt_le cfg cfg_scaleDen_pos g K _ _ (by push_cast; linarith [hball.2]),
    le_roundAt cfg cfg_scaleDen_pos g K _ _ (by push_cast; linarith [hball.1])⟩

theorem last_precision_eq (g : GainStep) (kH kL : Nat) (hH : kH < 800000) (hL : kL < 800000) (K : Nat) (hK24 : K = 2 ^ 24) (lo hi : Int)
    (hlo : lo = roundAt cfg g K ((sumBall K kH kL).1 - (sumBall K kH kL).2))
    (hhi : hi = roundAt cfg g K ((sumBall K kH kL).1 + (sumBall K kH kL).2)) (hne : lo ≠ hi) :
    (if lo < 0 then lo else hi) = roundReal (800 * (g.toNat + 1) * (Real.sin (argOf kH) + Real.sin (argOf kL))) := by
  have hK : 64 ≤ K := by rw [hK24]; norm_num
  have hball := abs_le.mp (sumBall_error K kH kL hK hH hL)
  have hrad : ((sumBall K kH kL).2 : ℝ) ≤ 32 * K := by exact_mod_cast sumBall_radius K kH kL
  have henc := sample_enclosed g kH kL K hH hL hK
  rw [← hlo, ← hhi] at henc
  rw [roundAt_eq cfg cfg_scaleDen_pos, cfg_scale] at hlo hhi
  set S := Real.sin (argOf kH) + Real.sin (argOf kL)
  set A : ℝ := 800 * (g.toNat + 1)
  have hA0 : 0 ≤ A := by positivity
  have hA : A ≤ 12800 := by
    have : ((g.toNat : ℝ)) ≤ 15 := by exact_mod_cast Nat.le_of_lt_succ g.isLt
    simp only [A]; linarith
  set a := (sumBall K kH kL).1
  set r := (sumBall K kH kL).2
  have hP : (0 : ℝ) < 2 ^ K := by positivity
  have hxS : A * (((a - r : Int) : ℝ) / 2 ^ K) ≤ A * S := by
    refine mul_le_mul_of_nonneg_left ?_ hA0
    rw [div_le_iff₀ hP]; push_cast; linarith [hball.2]
  have hSy : A * S ≤ A * (((a + r : Int) : ℝ) / 2 ^ K) := by
    refine mul_le_mul_of_nonneg_left ?_ hA0
    rw [le_div_iff₀ hP]; push_cast; linarith [hball.1]
  have hwidth : 2 ^ K * (A * (((a + r : Int) : ℝ) / 2 ^ K) - A * (((a - r : Int) : ℝ) / 2 ^ K)) ≤ 12800 * (2 * (32 * K)) := by
    have : 2 ^ K * (A * (((a + r : Int) : ℝ) / 2 ^ K) - A * (((a - r : Int) : ℝ) / 2 ^ K)) = A * (2 * r) := by
      push_cast; field_simp; ring
    rw [this]
    gcongr
  have hbd : ∀ w : ℝ, |roundReal w| ≤ 32760 := fun w => abs_le.mpr (roundReal_bounds w)
  split_ifs with hneg
  · have hm : |lo| ≤ 32760 := hlo ▸ hbd _
    have hlb := (abs_le.mp hm).1
    have hxm := (roundReal_le hneg hlb _).mp hlo.ge
    have hym : ¬ (A * (((a + r : Int) : ℝ) / 2 ^ K) ≤ lo) := fun h => by
      have := (roundReal_le hneg hlb _).mpr h
      rw [← hhi] at this; omega
    have := between_bounds_is_integer g kH kL hH hL lo hm K hK24 _ _ hwidth hxS hSy hxm (not_le.mp hym).le
    exact le_antisymm henc.1 ((roundReal_le hneg hlb _).mpr this.le)
  · have hpos : 0 < hi := by omega
    have hm : |hi| ≤ 32760 := hhi ▸ hbd _
    have hub := (abs_le.mp hm).2
    have hym := (le_roundReal hpos hub _).mp hhi.le
    have hxm : ¬ ((hi : ℝ) ≤ A * (((a - r : Int) : ℝ) / 2 ^ K)) := fun h => by
      have := (le_roundReal hpos hub _).mpr h
      rw [← hlo] at this; omega
    have := between_bounds_is_integer g kH kL hH hL hi hm K hK24 _ _ hwidth hxS hSy (not_le.mp hxm).le hym
    exact le_antisymm ((le_roundReal hpos hub _).mpr this.ge) henc.2

theorem sampleAt_unfold_zero (c : Config) (g : GainStep) (kH kL K : Nat) : sampleAt c g kH kL 0 K =
    if roundAt c g K ((sumBall K kH kL).1 - (sumBall K kH kL).2) = roundAt c g K ((sumBall K kH kL).1 + (sumBall K kH kL).2)
    then roundAt c g K ((sumBall K kH kL).1 - (sumBall K kH kL).2)
    else if roundAt c g K ((sumBall K kH kL).1 - (sumBall K kH kL).2) < 0
      then roundAt c g K ((sumBall K kH kL).1 - (sumBall K kH kL).2)
      else roundAt c g K ((sumBall K kH kL).1 + (sumBall K kH kL).2) := rfl

theorem sampleAt_unfold_succ (c : Config) (g : GainStep) (kH kL fuel K : Nat) : sampleAt c g kH kL (fuel + 1) K =
    if roundAt c g K ((sumBall K kH kL).1 - (sumBall K kH kL).2) = roundAt c g K ((sumBall K kH kL).1 + (sumBall K kH kL).2)
    then roundAt c g K ((sumBall K kH kL).1 - (sumBall K kH kL).2)
    else sampleAt c g kH kL fuel (2 * K) := rfl

/-- Every sample is within the clamp, whatever the configuration (spec/42_dual_tone_synthesizer.md R114). -/
theorem sampleAt_bounds (c : Config) (hc : 0 < c.scaleDen) (g : GainStep) (kH kL fuel K : Nat) :
    -32760 ≤ sampleAt c g kH kL fuel K ∧ sampleAt c g kH kL fuel K ≤ 32760 := by
  induction fuel generalizing K with
  | zero =>
    rw [sampleAt_unfold_zero]
    split_ifs <;> exact roundAt_bounds c hc g K _
  | succ fuel ih =>
    rw [sampleAt_unfold_succ]
    split_ifs
    · exact roundAt_bounds c hc g K _
    · exact ih (2 * K)

/-- The int16 holds the rounded value: nothing is lost in 16 bits. -/
theorem sample_toInt (c : Config) (hc : 0 < c.scaleDen) (fh fl : CentiHertz) (g : GainStep) (p : Nat) :
    (sample c fh fl g p).toInt = sampleAt c g (reduceArg p fh) (reduceArg p fl) doublings firstPrecision := by
  have hb := sampleAt_bounds c hc g (reduceArg p fh) (reduceArg p fl) doublings firstPrecision
  rw [sample, BitVec.toInt_ofInt]
  exact Int.bmod_eq_of_le (by omega) (by omega)

theorem sampleAt_eq (g : GainStep) (kH kL : Nat) (hH : kH < 800000) (hL : kL < 800000) (fuel K : Nat) (hK : 64 ≤ K)
    (hKB : K * 2 ^ fuel = 2 ^ 24) :
    sampleAt cfg g kH kL fuel K = roundReal (800 * (g.toNat + 1) * (Real.sin (argOf kH) + Real.sin (argOf kL))) := by
  induction fuel generalizing K with
  | zero => 
    have henc := sample_enclosed g kH kL K hH hL hK
    rw [pow_zero, mul_one] at hKB
    have hlast := last_precision_eq g kH kL hH hL K hKB _ _ rfl rfl
    rw [sampleAt_unfold_zero]
    split_ifs with heq h
    · exact le_antisymm henc.1 (heq ▸ henc.2)
    · simpa only [if_pos h] using hlast heq
    · simpa only [if_neg h] using hlast heq
  | succ fuel ih => 
    have henc := sample_enclosed g kH kL K hH hL hK
    rw [sampleAt_unfold_succ]
    split_ifs with heq
    · exact le_antisymm henc.1 (heq ▸ henc.2)
    · exact ih (2 * K) (hK.trans (Nat.le_mul_of_pos_left K (by norm_num)))
        (by rw [← hKB, pow_succ]; ring)

theorem sin_reduceArg (p : Nat) (f : CentiHertz) : Real.sin (argOf (reduceArg p f)) = Real.sin (sineArg p f) := by
  unfold reduceArg turn
  have h := Nat.div_add_mod (p * f.toNat) 800000
  have : sineArg p f = argOf (p * f.toNat % 800000) + (p * f.toNat / 800000 : Nat) * (2 * Real.pi) := by
    unfold sineArg argOf
    have h' : (p : ℝ) * f.toNat = 800000 * (p * f.toNat / 800000 : Nat) + (p * f.toNat % 800000 : Nat) := by
      exact_mod_cast h.symm
    rw [show 2 * Real.pi * (p : ℝ) * f.toNat = 2 * Real.pi * ((p : ℝ) * f.toNat) by ring, h']
    ring
  rw [this, Real.sin_add_nat_mul_two_pi]

end Sys2Proof.Laws
end

