-- ==== Sys2Proof/Laws/Step.lean ====
section
/-!
SUPPORT. What a step can do, said once: every instruction completes with one effect on the state, and a step idles, applies
a reset, runs a decoded instruction, or refuses a word.
-/

namespace Sys2Proof.Machine

/-- The state an instruction leaves. -/
def effect (i : Instr) (s : State) : State :=
  match i with
  | .nop => s
  | .init => s.setPhase 0
  | .ldphase p => s.setPhase (BitVec.ofNat _ p.toNat)
  | .encode cls tone gain => encodeFrame cfg cls tone gain s
  | .decode cls f => decodeFrame cfg cls f s
  | .lookup tone => s.setLookup (romRead cfg tone)
  | .tone3200 g t k => decodeFrame cfg .c3200 (toneFrame .c3200 g t k) s
  | .tone1600 g t k => decodeFrame cfg .c1600 (toneFrame .c1600 g t k) s

/-- Every command of the set completes (spec/70_reset_and_hazards.md R172). -/
theorem exec_eq_next (i : Instr) (s : State) : exec i s = .next (effect i s) := by cases i <;> rfl

theorem exec_next_iff (i : Instr) (s t : State) : exec i s = .next t ↔ t = effect i s := by
  rw [exec_eq_next, Host.Outcome.next.injEq, eq_comm]

/-- No instruction touches what the host has still to give. -/
theorem effect_port (i : Instr) (s : State) : (effect i s).port = s.port := by
  cases i with
  | nop | init | ldphase => rfl
  | lookup tone => exact State.setLookup_port s _
  | encode cls tone gain => exact (encodeFrame_frame cfg cls tone gain s).2.2.2.2.2.2
  | decode cls f => exact (decodeFrame_frame cfg cls f s).2.2.2.2
  | tone3200 g t k => exact (decodeFrame_frame cfg _ _ s).2.2.2.2
  | tone1600 g t k => exact (decodeFrame_frame cfg _ _ s).2.2.2.2

theorem step_idle {s : State} (h : s.port = []) : step s = .next s := by
  unfold step takeInput
  rw [h]

theorem step_reset {s : State} {rest : List PortInput} (h : s.port = .reset :: rest) :
    step s = .next (s.setPort rest).applyReset := by
  unfold step takeInput
  rw [h]

theorem step_word {s : State} {w : InstrWord} {rest : List PortInput} (h : s.port = .word w :: rest) :
    step s = match decode w with
      | .ok i => exec i (s.setPort rest)
      | .error e => .refused (refusalOf e) := by
  have hs : step s = takeInput exec s := rfl
  cases hd : decode w <;> simp only [hs, takeInput, h, hd]

/-- What a step that answers a next state has done. -/
theorem step_cases {s t : State} (h : step s = .next t) :
    (s.port = [] ∧ t = s) ∨
    (∃ rest, s.port = .reset :: rest ∧ t = (s.setPort rest).applyReset) ∨
    (∃ w rest i, s.port = .word w :: rest ∧ decode w = .ok i ∧ t = effect i (s.setPort rest)) := by
  rcases hp : s.port with _ | ⟨_ | _, rest⟩
  · rw [step_idle hp] at h
    exact .inl ⟨rfl, (Host.Outcome.next.inj h).symm⟩
  · rename_i w
    rw [step_word hp] at h
    cases hd : decode w with
    | error e => rw [hd] at h; cases h
    | ok i =>
      rw [hd] at h
      exact .inr (.inr ⟨w, rest, i, rfl, hd, (exec_next_iff i _ t).mp h⟩)
  · rw [step_reset hp] at h
    exact .inr (.inl ⟨rest, rfl, (Host.Outcome.next.inj h).symm⟩)

/-- The word that `withFetchWord` puts before all else is the one the step runs, on the state as it was. -/
theorem step_withFetchWord (s : State) (nbits w : Nat) (i : Instr) (h : decodeTableWord nbits w = some i) :
    step (s.withFetchWord nbits w) = exec i s := by
  have hp : (s.withFetchWord nbits w).port = .word (tableWord nbits w) :: s.port := rfl
  rw [step_word hp]
  unfold decodeTableWord at h
  cases hd : decode (tableWord nbits w) with
  | error e => rw [hd] at h; cases h
  | ok j =>
    rw [hd] at h
    obtain rfl : j = i := Option.some.inj h
    rfl

end Sys2Proof.Machine
end

