-- ==== Sys2Proof/Tests/Slice0.lean ====
section
/-!
SUPPORT. The model's own tests. Expected values are those of spec/95_test_vectors.md, whose number each comment cites, or
of the named rule; section 4 shows, for each obligation with hypotheses, a concrete case that meets them.
-/

namespace Sys2Proof.Tests

open Machine

/-! ### Helpers -/

/-- A block in mid-stream: phase 160, a frame in `FRAME_OUT`, a buffer of non-zero values, a lookup result. -/
def busy : State where
  phase := 160
  status := .gainOutOfRange
  frameOut := 0x010009439CF00D19
  pcm := Pcm.zero.write 320 fun _ => 1600
  pcmLen := 160
  lkFound := true
  lkFh := 120900
  lkFl := 69700
  port := []

/-- A freshly reset block that is given the words of a list. -/
def given (xs : List PortInput) : State := State.reset.setPort xs

/-- What a result says of the state it leaves, if it leaves one. -/
def leaves (r : Result) (check : State → Bool) : Bool :=
  match r with
  | .next t => check t
  | .fault _ => false
  | .refused _ => false

/-- Whether a result is the given refusal. -/
def refusedWith (r : Result) (why : Refusal) : Bool :=
  match r with
  | .next _ => false
  | .fault _ => false
  | .refused x => x == why

/-! ### 1. Well-formedness -/

theorem test_cfg_wf : Config.wf cfg = true := by decide

/-- A table that does not reach the bound is no configuration (spec/41_tone_table_rom.md R99). -/
theorem test_cfg_short_table_refused : Config.wf { cfg with notes := cfg.notes.take 84 } = false := by decide

/-- A bound that is none of the three historical ones is no configuration (spec/41_tone_table_rom.md R99). -/
theorem test_cfg_other_bound_refused : Config.wf { cfg with maxIndex := 0x50 } = false := by decide

theorem test_cfg_zero_scale_refused : Config.wf { cfg with scaleNum := 0 } = false := by decide

/-- An accumulator without bits is no configuration (spec/92_eei_decisions.md D6). -/
theorem test_cfg_no_phase_refused : Config.wf { cfg with phaseWidth := 0 } = false := by decide

/-- V3, V5d as terms. -/
theorem test_wellFormed : Instr.wellFormed cfg (.tone3200 15 0x59 0xBE) = true ∧
    Instr.wellFormed cfg (.tone1600 3 0x50 0x92) = true ∧ Instr.wellFormed cfg (.encode .c3200 0xFF 0xFF) = true := by decide

/-- `checksumFits` refuses V19's frame (byte 7 off by one) and the other class's checksum (V2). -/
theorem test_bad_checksum_refused : Instr.wellFormed cfg (.tone3200 15 0x00 0x16) = false ∧
    Instr.wellFormed cfg (.tone3200 15 0x00 0xD6) = false ∧ Instr.wellFormed cfg (.tone1600 15 0x00 0x17) = false := by decide

/-- `indexFits` refuses V17's and V17a's frames (index above `MAX_INDEX`, checksum right). -/
theorem test_bad_index_refused : Instr.wellFormed cfg (.tone3200 15 0x75 0xA2) = false ∧
    Instr.wellFormed cfg (.tone1600 0 0xFF 0xE6) = false := by decide

/-! ### 2. Decoding words written out from spec/30_encoding.md -/

/-- NOP: `op` 000, every other bit ignored (R54, R57): a word of ones but for `op`. -/
theorem test_decode_nop : decodeTableWord 88 0x1FFFFFFFFFFFFFFFFFFFF = some .nop ∧ decodeTableWord 88 0 = some .nop := by decide

/-- INIT: `op` 001 (R63: first digit 2, or 3 with the ignored class bit). -/
theorem test_decode_init : decodeTableWord 88 0x200000000000000000000 = some .init ∧
    decodeTableWord 88 0x300000000000000000001 = some .init := by decide

/-- LDPHASE, V34a: the upper half of `data` is ignored. -/
theorem test_decode_ldphase : decodeTableWord 88 0x4000012345678FFFFFF00 = some (.ldphase 0xFFFFFF00) := by decide

/-- ENCODE, V1 and V4: class bit, tone, gain; V9a: `data` ignored. -/
theorem test_decode_encode : decodeTableWord 88 0x6000F0000000000000000 = some (.encode .c3200 0x00 15) ∧
    decodeTableWord 88 0x774000000000000000000 = some (.encode .c1600 0x74 0) ∧
    decodeTableWord 88 0x6000FFFFFFFFFFFFFFFFF = some (.encode .c3200 0x00 15) := by decide

/-- DECODE, V14 and V35: the frame stands in `data`, byte 0 in bits 63:56. -/
theorem test_decode_decode : decodeTableWord 88 0x80000010009439CE42108 = some (.decode .c3200 0x010009439CE42108) ∧
    decodeTableWord 88 0x900000100040025FF597D = some (.decode .c1600 0x0100040025FF597D) := by decide

/-- LOOKUP, V45; first digit B is LOOKUP with the ignored class bit (R63). -/
theorem test_decode_lookup : decodeTableWord 88 0xA59000000000000000000 = some (.lookup 0x59) ∧
    decodeTableWord 88 0xB5900FFFFFFFFFFFFFFFF = some (.lookup 0x59) := by decide

/-- The tone patterns bit by bit (R52, R53), with the fields of V5c and V5d. -/
theorem test_decode_wire :
    decodeTableWord 64 0b0000000100000000000010010100001110011100111110010000010100011000 = some (.tone3200 9 0x05 0x18) ∧
    decodeTableWord 64 0b0000000100000000000001000000000000100101111100110101000010010010 = some (.tone1600 3 0x50 0x92) := by
  decide

/-- V37: first digits C and E are the reserved codes; a frame with indicator 0xE and one with neither header have no
pattern. -/
theorem test_decode_refused : decodeTableWord 88 0xC00000000000000000000 = none ∧
    decodeTableWord 88 0xE00000000000000000000 = none ∧ decodeTableWord 64 0x010009439CEF0027 = none ∧
    decodeTableWord 64 0x00000000000000FF = none := by decide

/-- The canonical words of spec/30_encoding.md R63. -/
theorem test_encode_words : encode (.encode .c1600 0x74 0) = .command 0x774000000000000000000 ∧
    encode (.ldphase 0xFFFFFF00) = .command 0x4000000000000FFFFFF00 ∧
    encode (.tone3200 9 0x05 0x18) = .wire 0x010009439CF90518 := by decide

/-- The notation of spec/30_encoding.md R62. -/
theorem test_asm : asmText (.encode .c1600 116 0) = "ENCODE 1600, 116, 0" ∧
    (decodep .c3200 0 7).map asmText = ["LDPHASE 7", "DECODE 3200, 0"] := by decide +kernel

/-- Byte 0 is the most significant (spec/20_memory.md R33). -/
theorem test_frame_bytes : frameOfBytes [0x01, 0x00, 0x09, 0x43, 0x9C, 0xFF, 0x00, 0x17] = some 0x010009439CFF0017 := by decide

/-! ### 3. Single steps -/

/-- V32: NOP with `PHASE = 160`. -/
theorem test_nop : step (busy.withFetchWord 88 0) = .next busy := rfl

/-- V33: INIT. -/
theorem test_init : leaves (execInit (busy.setPhase 4294967040)) (fun t => t.phase == 0 && t.status == .gainOutOfRange) = true := by
  decide

/-- V34: LDPHASE. -/
theorem test_ldphase : leaves (execLdphase 0xFFFFFF00 busy) (fun t => t.phase.toNat == 4294967040 && t.pcmLen == 160) = true := by
  decide

/-- V5 (checksum zero), V9. -/
theorem test_encode : leaves (execEncode .c3200 0x1F 7 busy) (fun t => t.frameOut == 0x010009439CF71F00 && t.status == .ok) = true ∧
    leaves (execEncode .c3200 0x74 15 State.reset) (fun t => t.frameOut == 0x010009439CFF74A3) = true := by decide

/-- P4, steps 2 to 4: the header is written, the stale bytes stay; codes 5, 6, 5. -/
theorem test_encode_errors :
    leaves (execEncode .c1600 0x75 3 busy) (fun t => t.frameOut == 0x0100040025F00D19 && t.status.code == 5) = true ∧
    leaves (execEncode .c1600 0x74 16 busy) (fun t => t.frameOut == 0x0100040025F00D19 && t.status.code == 6) = true ∧
    leaves (execEncode .c1600 0x80 0xFF busy) (fun t => t.frameOut == 0x0100040025F00D19 && t.status.code == 5) = true := by
  decide

/-- V14, V18, V16b, V17a: the four reasons, the first failing test wins. -/
theorem test_decode_failures :
    leaves (execDecode .c3200 0x010009439CE42108 busy) (fun t => t.status.code == 2 && t.pcmLen == 160 && t.phase == 160) = true ∧
    leaves (execDecode .c1600 0x010009439CFF0017 busy) (fun t => t.status.code == 1 && t.pcmLen == 320) = true ∧
    leaves (execDecode .c3200 0x010009439C0FFF08 busy) (fun t => t.status.code == 3) = true ∧
    leaves (execDecode .c1600 0x0100040025F0FFE6 busy) (fun t => t.status.code == 4) = true := by
  decide +kernel

/-- V14: the failure writes zeros below 160 and keeps the rest (spec/10_state.md R20). -/
theorem test_decode_failure_audio :
    leaves (execDecode .c3200 0x010009439CE42108 busy) (fun t => t.pcm.read 159 == 0 && t.pcm.read 160 == 1600) = true := by
  decide +kernel

/-- V22: the second frame of the same tone. -/
theorem test_decode_plays : leaves (execDecode .c3200 0x010009439CFF0017 busy) (fun t =>
    t.status.code == 0 && t.phase == 320 && (t.pcm.read 0).toInt == 6869 && (t.pcm.read 159).toInt == 36 &&
      (t.pcm.read 160).toInt == 1600) = true := by
  decide +kernel

/-- V27: C7, step 15, as a bare frame. -/
theorem test_tone3200 : leaves (execTone3200 15 0x74 0xA3 State.reset) (fun t =>
    t.phase == 160 && (t.pcm.read 1).toInt == 25531 && (t.pcm.read 3).toInt == -24987) = true := by
  decide +kernel

/-- V35: the wrap of the phase, as a bare frame. -/
theorem test_tone1600 : leaves (execTone1600 15 0x59 0x7D (State.reset.setPhase 0xFFFFFF00)) (fun t =>
    t.phase == 64 && (t.pcm.read 255).toInt == 25284 && (t.pcm.read 256).toInt == 0 && (t.pcm.read 319).toInt == 5584) = true := by
  decide +kernel

/-- V46, V47. -/
theorem test_lookup : leaves (execLookup 0x74 State.reset) (fun t => t.lkFound && t.lkFh == 209300 && t.lkFl == 209300) = true ∧
    leaves (execLookup 0x75 busy) (fun t => !t.lkFound && t.lkFh == 0 && t.lkFl == 0 && t.status == busy.status) = true := by
  decide

/-- V42, V43: the placeholder Knox bank. -/
theorem test_knox : romRead cfg 0x10 = some ⟨163300, 94100⟩ ∧ romRead cfg 0x1F = some ⟨120900, 69700⟩ := by decide

/-- V49, and the note after V19: with the bound `0x48`, index `0x49` is not found and its frame gives code 4. -/
theorem test_lower_bound : romRead { cfg with maxIndex := 0x48 } 0x48 = some ⟨16481, 16481⟩ ∧
    romRead { cfg with maxIndex := 0x48 } 0x49 = none ∧
    (decodeFrame { cfg with maxIndex := 0x48 } .c3200 0x010009439CFF49CE busy).status.code = 4 := by decide

/-- V13, V13a, V13b. -/
theorem test_checksum : checksum 0x01 0x00 0x09 0x43 0x9C 0xFF 0x00 = 0x17 ∧
    checksum 0x01 0x00 0x09 0x43 0x9C 0xF7 0x1F = 0x00 ∧ checksum 0x01 0x00 0x04 0x00 0x25 0xF0 0x74 = 0x71 := by decide

/-- V51, g = 0, 10, 11 (truncation). -/
theorem test_sample_gain : (sample cfg 120900 69700 0 1).toInt = 1066 ∧ (sample cfg 120900 69700 10 1).toInt = 11736 ∧
    (sample cfg 120900 69700 11 1).toInt = 12802 := by decide +kernel

/-- V29a's closest call (real value 4932.99307), and V54. -/
theorem test_sample_rounding : (sample cfg 133600 77000 9 159).toInt = 4932 ∧ (sample cfg 120900 69700 15 7999).toInt = -17070 := by
  decide +kernel

/-- V60: the exact points. -/
theorem test_sample_exact : (sample cfg 120900 69700 15 2000).toInt = 25600 ∧ (sample cfg 44000 44000 15 50).toInt = -25600 ∧
    (sample cfg 44000 44000 15 100).toInt = 0 := by decide +kernel

/-- A zero of one slot and a peak of the other, DTMF "4" at phase 2000: half the amplitude (spec/42_dual_tone_synthesizer.md
R113, R117). -/
theorem test_sample_half : (sample cfg 120900 77000 15 2000).toInt = 12800 := by decide +kernel

/-- A 16-bit accumulator wraps at 2^16 (spec/93_implementation_defined.md U4); the sample after the wrap is that of phase 0. -/
theorem test_other_width : (synth { cfg with phaseWidth := 16 } ⟨44000, 44000⟩ 15 65535 2).2 = 1 ∧
    (synth { cfg with phaseWidth := 16 } ⟨44000, 44000⟩ 15 65535 2).1[1]? = some 0 := by decide +kernel

/-- V56: the clamp, with `OUTPUT_SCALE = 400`. -/
theorem test_sample_clamp : (sample { cfg with scaleNum := 400 } 44000 44000 15 149).toInt = 32760 ∧
    (sample { cfg with scaleNum := 400 } 44000 44000 15 50).toInt = -32760 ∧
    (sample { cfg with scaleNum := 400 } 44000 44000 15 148).toInt = 30820 := by decide +kernel

/-- spec/30_encoding.md R58, V37: a reserved code is refused by name. -/
theorem test_reserved_op : refusedWith (step (State.reset.withFetchWord 88 0xC00000000000000000000)) (.reservedOp 6) = true ∧
    refusedWith (step (State.reset.withFetchWord 88 0xFFFFFFFFFFFFFFFFFFFFF)) (.reservedOp 7) = true := by decide

/-- A bare frame without a pattern is refused by name (log 3). -/
theorem test_no_pattern : refusedWith (step (State.reset.withFetchWord 64 0x010009439CEF0027)) (.noTonePattern 0x010009439CEF0027) = true := by
  decide

/-- spec/10_state.md R23, spec/70_reset_and_hazards.md R160: reset as an input. -/
theorem test_reset_input : step (busy.setPort [.reset]) = .next State.reset := rfl

/-- P1, steps 1 and 2, and the host's reads of it. -/
theorem test_scenario : leaves (runAll [.encode .c3200 0 15, .decode .c3200 0x010009439CFF0017] State.reset) (fun t =>
    hostRead .frameOut t == 0x010009439CFF0017 && hostRead .phase t == 160 && hostRead (.pcm 1) t == 17070) = true := by
  decide +kernel

/-! ### 4. A case that meets the hypotheses of each obligation that has some -/

/-- A busy block with a reset before another word, for ResetInputClearsEveryRegister. -/
theorem witness_reset : (busy.setPort [.reset, .word (encode .nop)]).port = .reset :: [.word (encode .nop)] ∧
    busy.setPort [.reset, .word (encode .nop)] ≠ State.reset := by decide +kernel

/-- Two states built differently that read the same, for HostReadsDetermineTheState. -/
theorem witness_host_reads : (∀ r, hostRead r ((State.reset.setPhase 7).setPhase 0) = hostRead r State.reset) ∧
    ((State.reset.setPhase 7).setPhase 0).port = State.reset.port := ⟨fun _ => rfl, rfl⟩

/-- The invariant of a block in mid-stream, for StepKeepsInvariant. -/
theorem busy_inv : Sys2Proof.Inv busy := by
  refine ⟨.inr (.inl rfl), ⟨fun i => ?_, fun h => absurd h (by decide)⟩, ⟨fun _ => ⟨0, by decide⟩, fun h => absurd h (by decide)⟩,
    .inr ⟨.c3200, by decide⟩, .inr ⟨.c3200, 0, 0x0D, by decide, by decide⟩⟩
  have e : busy.pcm.read i = 1600 := (Pcm.read_write ..).trans (if_pos i.isLt)
  rw [e]
  decide

/-- Each kind of step from a state with the invariant, for StepKeepsInvariant: idle, reset, a command. -/
theorem witness_step_inv : (Sys2Proof.Inv busy ∧ step busy = .next busy) ∧
    (Sys2Proof.Inv (busy.setPort [.reset]) ∧ step (busy.setPort [.reset]) = .next State.reset) ∧
    (Sys2Proof.Inv (busy.setPort [.word (encode (.lookup 0x75))]) ∧
      step (busy.setPort [.word (encode (.lookup 0x75))]) = .next (busy.setLookup none)) :=
  ⟨⟨busy_inv, rfl⟩, ⟨busy_inv, rfl⟩, ⟨busy_inv, rfl⟩⟩

/-- One instruction for each clause of OnlyListedCommandsWrite: LOOKUP (no codec command, no decoded frame), LDPHASE, ENCODE,
a failing DECODE. -/
theorem witness_listed : exec (.lookup 0x59) busy = .next (busy.setLookup (romRead cfg 0x59)) ∧ decodedFrame (.lookup 0x59) = none ∧
    exec (.ldphase 9) busy = .next (busy.setPhase 9) ∧
    exec (.encode .c3200 0 0) busy = .next (encodeFrame cfg .c3200 0 0 busy) ∧
    decodedFrame (.decode .c1600 0) = some (.c1600, 0) ∧
    exec (.decode .c1600 0) busy = .next (decodeFrame cfg .c1600 0 busy) ∧ (decodeFrame cfg .c1600 0 busy).status.code ≠ 0 :=
  ⟨rfl, rfl, rfl, rfl, rfl, rfl, by decide⟩

/-- Two states with one phase and different result registers, and an instruction for each clause of
ResultRegistersAreNoInputs. -/
theorem witness_no_inputs : busy.phase = (State.reset.setPhase 160).phase ∧ busy ≠ State.reset.setPhase 160 ∧
    exec (.lookup 0) busy = .next (effect (.lookup 0) busy) ∧
    exec (.lookup 0) (State.reset.setPhase 160) = .next (effect (.lookup 0) (State.reset.setPhase 160)) ∧
    exec (.encode .c1600 0x74 15) busy = .next (effect (.encode .c1600 0x74 15) busy) ∧
    (effect (.encode .c1600 0x74 15) busy).status.code = 0 ∧ (effect (.encode .c1600 0x75 15) busy).status.code ≠ 0 ∧
    exec (.decode .c3200 0x010009439CFF0017) busy = .next (effect (.decode .c3200 0x010009439CFF0017) busy) ∧
    decodedFrame (.decode .c3200 0x010009439CFF0017) = some (.c3200, 0x010009439CFF0017) :=
  ⟨rfl, by decide +kernel, rfl, rfl, rfl, by decide, by decide, rfl, rfl⟩

/-- A word for each clause about words of PhaseCommandsWriteOnlyPhase, LookupWritesTheEntry, EncodeResult and DecodeResult,
every other bit set. -/
theorem witness_ops : cmdOp 0x1FFFFFFFFFFFFFFFFFFFF = 0 ∧ cmdOp 0x3FFFFFFFFFFFFFFFFFFFF = 1 ∧ cmdOp 0x5FFFFFFFFFFFFFFFFFFFF = 2 ∧
    cmdOp 0xBFFFFFFFFFFFFFFFFFFFF = 5 ∧ cmdOp 0x7FFFFFFFFFFFFFFFFFFFF = 3 ∧ cmdOp 0x9FFFFFFFFFFFFFFFFFFFF = 4 := by decide

/-- A sequence without INIT and LDPHASE in which one frame of each class plays and one fails, for PhaseCountsPlayedFrames. -/
theorem witness_counts : (∀ i ∈ [Instr.decode .c3200 0x010009439CFF0017, .tone1600 15 0x59 0x7D, .decode .c1600 0, .nop],
      i ≠ .init ∧ ∀ p, i ≠ .ldphase p) ∧
    ∃ t, runAll [Instr.decode .c3200 0x010009439CFF0017, .tone1600 15 0x59 0x7D, .decode .c1600 0, .nop] busy = .next t :=
  ⟨by simp, _, rfl⟩

/-- The ends of each range of TableContents, and the entries at the banks' ends for TableLaws. -/
theorem witness_table : (0 < 16 ∧ 15 < 16 ∧ 0 ≤ 84 ∧ 84 ≤ 84) ∧ 0x74 < (0x75 : Byte).toNat ∧ 0x74 < (0xFF : Byte).toNat ∧
    romRead cfg 0x00 = some ⟨120900, 69700⟩ ∧ romRead cfg 0x1F = some ⟨120900, 69700⟩ ∧ romRead cfg 0x20 = some ⟨1635, 1635⟩ ∧
    romRead cfg 0x74 = some ⟨209300, 209300⟩ := by decide

/-- The ends of the bounds of LowerBoundOnlyCutsTheTable, and one between; an operand at a bound; a frame on each side of one. -/
theorem witness_bounds : (0x1F ≤ (0x1F : Byte).toNat ∧ (0x1F : Byte).toNat ≤ 0x74) ∧
    (0x1F ≤ (0x48 : Byte).toNat ∧ (0x48 : Byte).toNat ≤ 0x74) ∧ (0x1F ≤ (0x74 : Byte).toNat ∧ (0x74 : Byte).toNat ≤ 0x74) ∧
    { cfg with maxIndex := (0x74 : Byte) } = cfg ∧ (0x48 : Byte).toNat ≤ (0x48 : Byte).toNat ∧
    (decodeFrame cfg .c3200 0x010009439CFF49CE busy).status = .ok ∧
    (0x48 : Byte).toNat < (frameToneIndex 0x010009439CFF49CE).toNat ∧
    ¬ (0x49 : Byte).toNat < (frameToneIndex 0x010009439CFF49CE).toNat := by
  decide +kernel

/-- Lists of 0, 7 and 9 bytes, for FramesAreBigEndian. -/
theorem witness_lengths : ([] : List Byte).length ≠ 8 ∧ (List.replicate 7 (0 : Byte)).length ≠ 8 ∧
    (List.replicate 9 (0 : Byte)).length ≠ 8 := by decide

/-- Both classes, both outcomes and the places where `PCM`'s clauses meet, for DecodeResult (V17, V15, V1, V2). -/
theorem witness_decode : (160 = match FrameClass.c3200 with | .c3200 => 160 | .c1600 => 320) ∧
    (320 = match FrameClass.c1600 with | .c3200 => 160 | .c1600 => 320) ∧
    (160 ≤ (160 : Fin pcmSize).val ∧ 160 ≤ (319 : Fin pcmSize).val) ∧ ((0 : Fin pcmSize).val < 160 ∧ (159 : Fin pcmSize).val < 160) ∧
    leaves (exec (.decode .c3200 0x010009439CFF75A2) busy) (fun t => t.status.code != 0) = true ∧
    leaves (exec (.decode .c1600 0x010004002575DDF2) busy) (fun t => t.status.code != 0) = true ∧
    leaves (exec (.decode .c3200 0x010009439CFF0017) busy) (fun t => t.status.code == 0) = true ∧
    leaves (exec (.decode .c1600 0x0100040025FF00D6) busy) (fun t => t.status.code == 0) = true :=
  ⟨rfl, rfl, by decide, by decide, by decide +kernel, by decide +kernel, by decide +kernel, by decide +kernel⟩

/-- The invariants of DecodeTestsTheInvariants on V1, where all hold, and on V17, where only the last fails. -/
theorem witness_invariants :
    (True ↔ (0x010009439CFF0017 : Frame).toNat / 2 ^ 24 = (silence .c3200).toNat / 2 ^ 24) ∧
    (True ↔ ((0x010009439CFF0017 : Frame).extractLsb' 0 8).toNat = 255 - (0x01 + 0x00 + 0x09 + 0x43 + 0x9C + 0xFF + 0x00) % 256) ∧
    (True ↔ (0x010009439CFF0017 : Frame).extractLsb' 20 4 = 0xF) ∧
    (True ↔ ((0x010009439CFF0017 : Frame).extractLsb' 8 8).toNat ≤ 0x74) ∧
    (False ↔ ((0x010009439CFF75A2 : Frame).extractLsb' 8 8).toNat ≤ 0x74) := by decide

/-- The ends of both operands, for EncodeThenDecodePlays. -/
theorem witness_round_trip : ((0x74 : Byte).toNat ≤ 0x74 ∧ (15 : Byte).toNat ≤ 15) ∧ ((0 : Byte).toNat ≤ 0x74 ∧ (0 : Byte).toNat ≤ 15) := by
  decide

/-- V1 and V4 are playable, for DecodeWritesSynth, and so tone frames, for OneFlippedBitIsCaught and ToneFrameHasOneClass; V17
is a tone frame that is not playable; a flip on each side of the header's end. -/
theorem witness_playable : Playable .c3200 0x010009439CFF0017 ∧ Playable .c1600 0x0100040025F07471 ∧
    ToneFrame .c3200 0x010009439CFF75A2 ∧ ¬ Playable .c3200 0x010009439CFF75A2 ∧
    FrameClass.c1600 ≠ .c3200 ∧ FrameClass.c3200 ≠ .c1600 ∧ (24 ≤ (24 : Fin 64).val ∧ ¬ 24 ≤ (23 : Fin 64).val) := by
  unfold Playable ToneFrame
  decide

/-- A failed DECODE (V14), for FailedDecodeLeavesTheStream. -/
theorem witness_failed_decode : exec (.decode .c3200 0x010009439CE42108) busy =
      .next (decodeFrame cfg .c3200 0x010009439CE42108 busy) ∧
    (decodeFrame cfg .c3200 0x010009439CE42108 busy).status.code ≠ 0 := ⟨rfl, by decide⟩

/-- P4, steps 1 and 2, and a failure of the same class, for FailedEncodeKeepsOldBytes. -/
theorem witness_failed_encode :
    let t := encodeFrame cfg .c3200 0x0D 0 State.reset
    exec (.encode .c3200 0x0D 0) State.reset = .next t ∧ t.status.code = 0 ∧
    exec (.encode .c1600 0x75 3) t = .next (encodeFrame cfg .c1600 0x75 3 t) ∧
    (encodeFrame cfg .c1600 0x75 3 t).status.code ≠ 0 ∧ FrameClass.c1600 ≠ .c3200 ∧
    exec (.encode .c3200 0x74 16) t = .next (encodeFrame cfg .c3200 0x74 16 t) ∧
    (encodeFrame cfg .c3200 0x74 16 t).status.code ≠ 0 := ⟨rfl, by decide, rfl, by decide, by decide, rfl, by decide⟩

/-- A sample function that conforms on some entry and one that does not, for ConformingSamplesAreTheMachines; and the ends of
`i < n` for DecodeWritesSynth and PhaseHasTheConfiguredWidth; the ends of the phases. -/
theorem witness_samples : 0 < 2 ^ 32 ∧ 4294967295 < 2 ^ 32 ∧ romRead cfg 0x74 = some ⟨209300, 209300⟩ ∧ sample cfg 209300 209300 15 1 ≠ 0 ∧ 0 < 160 ∧ 159 < 160 := by
  decide +kernel

/-- Both periods, for SampleSymmetricAndPeriodic: across 800000 for a note, across 8000 for DTMF "1". -/
theorem witness_periods : 5 % 800000 = 800005 % 800000 ∧ 100 ∣ (120900 : CentiHertz).toNat ∧
    100 ∣ (69700 : CentiHertz).toNat ∧ 3 % 8000 = 8003 % 8000 := by decide

/-- The premises of SampleOddBoundedMonotone at the ends of a period and of the gain steps. -/
theorem witness_odd : (1 + 799999) % 800000 = 0 ∧ (0 + 0) % 800000 = 0 ∧
    (0 : GainStep).toNat ≤ (15 : GainStep).toNat ∧ (15 : GainStep).toNat ≤ (15 : GainStep).toNat := by decide

/-- SampleAtExactPoints: A4 at 150, 50, 100 and 0 (equal sines), DTMF "4" at 2000 (a peak and a zero), and a pair with
opposite peaks. -/
theorem witness_exact_points : (150 * (44000 : CentiHertz).toNat % 800000, 1) ∈ exactSines ∧
    (50 * (44000 : CentiHertz).toNat % 800000, -1) ∈ exactSines ∧ (100 * (44000 : CentiHertz).toNat % 800000, 0) ∈ exactSines ∧
    (0 * (44000 : CentiHertz).toNat % 800000, 0) ∈ exactSines ∧
    ((2000 * (120900 : CentiHertz).toNat % 800000, 1) ∈ exactSines ∧ (2000 * (77000 : CentiHertz).toNat % 800000, 0) ∈ exactSines) ∧
    ((5 * (40000 : CentiHertz).toNat % 800000, 1) ∈ exactSines ∧ (5 * (120000 : CentiHertz).toNat % 800000, -1) ∈ exactSines) := by
  decide

/-- The top of the table, for TwoShortFramesMakeALongOne, and the last phases at which a frame does not reach the wrap, for
RebasedPhaseKeepsSamples. -/
theorem witness_phases : (0x74 : Byte).toNat ≤ 0x74 ∧
    (busy.setPhase 0xFFFFFF60).phase.toNat + sampleCount .c3200 ≤ 2 ^ 32 ∧
    (busy.setPhase 0xFFFFFEC0).phase.toNat + sampleCount .c1600 ≤ 2 ^ 32 := by decide

/-- A word of every command with ignored bits set, and a frame of every pattern, for UnusedFieldsAreIgnored. -/
theorem witness_unused : decodeCommand 0x1FFFFFFFFFFFFFFFFFFFF = .ok .nop ∧ decodeCommand 0x3FFFFFFFFFFFFFFFFFFFF = .ok .init ∧
    decodeCommand 0x5FFFFFFFFFFFFFFFFFFFF = .ok (.ldphase 0xFFFFFFFF) ∧
    decodeCommand 0x7FFFFFFFFFFFFFFFFFFFF = .ok (.encode .c1600 0xFF 0xFF) ∧
    decodeCommand 0x9FFFFFFFFFFFFFFFFFFFF = .ok (.decode .c1600 0xFFFFFFFFFFFFFFFF) ∧
    decodeCommand 0xBFFFFFFFFFFFFFFFFFFFF = .ok (.lookup 0xFF) ∧
    decodeWire 0x010009439CFF0017 = .ok (.tone3200 15 0 0x17) ∧ decodeWire 0x0100040025FF597D = .ok (.tone1600 15 0x59 0x7D) :=
  ⟨rfl, rfl, rfl, rfl, rfl, rfl, rfl, rfl⟩

/-- The three cases of StepRunsTheDecodedInstruction. -/
theorem witness_runs : (given [.word (.command 0xA59000000000000000000), .reset]).port =
      .word (.command 0xA59000000000000000000) :: [.reset] ∧
    decode (.command 0xA59000000000000000000) = .ok (.lookup 0x59) ∧ busy.port = [] ∧
    decodeTableWord 64 0x010009439CFF0017 = some (.tone3200 15 0 0x17) := ⟨rfl, rfl, rfl, rfl⟩

/-- A word on each side of each clause of ReservedOpsSelectNoCommand and ReservedOpsAreRefused, and the port that holds one. -/
theorem witness_reserved : (given [.word (.command 0xC00000000000000000000)]).port = .word (.command 0xC00000000000000000000) :: [] ∧
    cmdOp 0xC00000000000000000000 = 6 ∧ cmdOp 0xFFFFFFFFFFFFFFFFFFFFF = 7 ∧
    (cmdOp 0xBFFFFFFFFFFFFFFFFFFFF ≠ 6 ∧ cmdOp 0xBFFFFFFFFFFFFFFFFFFFF ≠ 7) ∧ (cmdOp 0 ≠ 6 ∧ cmdOp 0 ≠ 7) := by decide

/-- A frame for each clause of BareFramesWithoutPatternAreRefused, the last one bit away from a pattern (V16a). -/
theorem witness_wire : (given [.word (.wire 0x010009439CFF0017)]).port = .word (.wire 0x010009439CFF0017) :: [] ∧
    (0x010009439CFF0017 : Frame).extractLsb' 20 44 = 0x010009439CF ∧
    (0x0100040025FF597D : Frame).extractLsb' 20 44 = 0x0100040025F ∧
    (0x010009439CEF0027 : Frame).extractLsb' 20 44 ≠ 0x010009439CF ∧
    (0x010009439CEF0027 : Frame).extractLsb' 20 44 ≠ 0x0100040025F := by decide

/-- Inputs of both kinds, for AllowedInputsNeverStop. -/
theorem witness_allowed : ∀ x ∈ (given [.reset, .word (encode (.decode .c3200 0))]).port, PortInput.allowed x := by
  intro x hx
  rcases List.mem_cons.mp hx with rfl | hx
  · exact trivial
  · obtain rfl := List.mem_singleton.mp hx
    exact ⟨.decode .c3200 0, rfl⟩

/-- Two instances, each with a step to take, in both orders, for InstancesAreIndependent. -/
theorem witness_instances :
    let a := given [.word (encode (.ldphase 5))]
    let b := given [.word (encode (.lookup 0x59))]
    let a' := State.reset.setPhase 5
    let b' := State.reset.setLookup (romRead cfg 0x59)
    stepInstance 0 [a, b] = .next [a', b] ∧ stepInstance 1 [a', b] = .next [a', b'] ∧
    stepInstance 1 [a, b] = .next [a, b'] ∧ stepInstance 0 [a, b'] = .next [a', b'] ∧ [a, b][0]? = some a := ⟨rfl, rfl, rfl, rfl, rfl⟩

end Sys2Proof.Tests
end

section
/-!
PROOFS. Reset and the inputs of the commands (spec/10_state.md R21, R23): what ENCODE and DECODE leave in each register as
a function of their operands and, for DECODE, of the old phase; from these the two obligations about the state.
-/

namespace Sys2Proof.Machine

theorem Status.code_eq_zero_iff (r : Status) : r.code = 0 ↔ r = .ok := by
  cases r <;> decide

/-! ### ENCODE -/

theorem encodeFrame_status (c : Config) (cls : FrameClass) (tone gain : Byte) (s : State) :
    (encodeFrame c cls tone gain s).status = encodeCheck c tone gain := by
  by_cases h : encodeCheck c tone gain = .ok
  · rw [encodeFrame_ok c cls tone gain s h, h]
  · rw [encodeFrame_fail c cls tone gain s _ h rfl, State.fail_status]

theorem encodeFrame_frameOut_of_ok {c : Config} {tone gain : Byte} (cls : FrameClass) (s : State)
    (h : encodeCheck c tone gain = .ok) :
    (encodeFrame c cls tone gain s).frameOut = playableFrame cls (gain.extractLsb' 0 4) tone := by
  rw [encodeFrame_ok c cls tone gain s h]

theorem encodeFrame_frameOut_of_fail {c : Config} {tone gain : Byte} (cls : FrameClass) (s : State)
    (h : encodeCheck c tone gain ≠ .ok) :
    (encodeFrame c cls tone gain s).frameOut = headerOf cls ++ s.frameOut.extractLsb' 0 24 := by
  rw [encodeFrame_fail c cls tone gain s _ h rfl, State.fail_frameOut, State.setFrameHeader_frameOut]

/-- ENCODE writes the header of its class, failing or not (spec/40_frame_codec.md R72). -/
theorem encodeFrame_header (c : Config) (cls : FrameClass) (tone gain : Byte) (s : State) :
    frameHeader (encodeFrame c cls tone gain s).frameOut = headerOf cls := by
  by_cases h : encodeCheck c tone gain = .ok
  · rw [encodeFrame_frameOut_of_ok cls s h]
    exact frameHeader_pack ..
  · rw [encodeFrame_frameOut_of_fail cls s h]
    exact (extract_append_high _ _ 24 40 (Nat.le_refl 24)).trans (extract_all _)

/-- A failing ENCODE keeps bytes 5 to 7 of `FRAME_OUT` (spec/10_state.md R21). -/
theorem encodeFrame_tail_of_fail {c : Config} {tone gain : Byte} (cls : FrameClass) (s : State)
    (h : encodeCheck c tone gain ≠ .ok) :
    (encodeFrame c cls tone gain s).frameOut.extractLsb' 0 24 = s.frameOut.extractLsb' 0 24 := by
  rw [encodeFrame_frameOut_of_fail cls s h]
  exact (extract_append_low _ _ 0 24 (Nat.le_refl 24)).trans (extract_all _)

/-! ### DECODE -/

/-- An instruction with a decoded frame is the DECODE of it (spec/30_encoding.md R52, R53; log 2). -/
theorem effect_of_decodedFrame {i : Instr} {cls : FrameClass} {f : Frame} (h : decodedFrame i = some (cls, f)) (s : State) :
    effect i s = decodeFrame cfg cls f s := by
  cases i <;> cases h <;> rfl

section

variable (c : Config) (cls : FrameClass) (f : Frame)

theorem decodeFrame_pcmLen (s : State) : (decodeFrame c cls f s).pcmLen = BitVec.ofNat 9 (sampleCount cls) := by
  cases h : validate c cls f with
  | error r => rw [decodeFrame_error c cls f s r h, State.fail_pcmLen, State.setAudio_pcmLen]
  | ok e => rw [decodeFrame_ok c cls f s e h, State.setStatus_pcmLen, State.setPhase_pcmLen, State.setAudio_pcmLen]

/-- DECODE's `STATUS` is a function of the class and the frame. -/
theorem decodeFrame_status_congr (s s' : State) : (decodeFrame c cls f s).status = (decodeFrame c cls f s').status := by
  cases h : validate c cls f with
  | error r => simp only [decodeFrame_error c cls f _ r h, State.fail_status]
  | ok e => simp only [decodeFrame_ok c cls f _ e h, State.setStatus_status]

variable {c cls f}

theorem decodeFrame_audio_of_error {r : Status} (h : validate c cls f = .error r) (s : State) :
    (decodeFrame c cls f s).audio = (List.range (sampleCount cls)).map fun _ => 0 := by
  rw [decodeFrame_error c cls f s r h]
  exact setAudio_audio s cls _

theorem decodeFrame_audio_of_ok {e : RomEntry} (h : validate c cls f = .ok e) (s : State) :
    (decodeFrame c cls f s).audio =
      (List.range (sampleCount cls)).map (synthSample c e (frameGainStep f) s.phase.toNat) := by
  rw [decodeFrame_ok c cls f s e h]
  exact setAudio_audio s cls _

variable (c cls f)

/-- DECODE's samples depend on no register but the phase (spec/10_state.md R21). -/
theorem decodeFrame_audio_congr {s s' : State} (hp : s.phase = s'.phase) :
    (decodeFrame c cls f s).audio = (decodeFrame c cls f s').audio := by
  cases h : validate c cls f with
  | error r => rw [decodeFrame_audio_of_error h, decodeFrame_audio_of_error h]
  | ok e => rw [decodeFrame_audio_of_ok h, decodeFrame_audio_of_ok h, hp]

/-- DECODE's new phase depends on no register but the old one (spec/10_state.md R21). -/
theorem decodeFrame_phase_congr {s s' : State} (hp : s.phase = s'.phase) :
    (decodeFrame c cls f s).phase = (decodeFrame c cls f s').phase := by
  cases h : validate c cls f with
  | error r => simp only [decodeFrame_error c cls f _ r h, State.fail_phase, State.setAudio_phase, hp]
  | ok e => simp only [decodeFrame_ok c cls f _ e h, State.setStatus_phase, State.setPhase_phase, hp]

end

/-! ### The obligations -/

/-- The phase an instruction leaves depends on no register but the phase it found (spec/10_state.md R21). -/
theorem effect_phase_congr (i : Instr) {s s' : State} (hp : s.phase = s'.phase) :
    (effect i s).phase = (effect i s').phase := by
  cases i with
  | nop => exact hp
  | init | ldphase => rfl
  | lookup tone => exact (State.setLookup_phase s _).trans (hp.trans (State.setLookup_phase s' _).symm)
  | encode cls tone gain =>
    exact (encodeFrame_frame cfg cls tone gain s).1.trans (hp.trans (encodeFrame_frame cfg cls tone gain s').1.symm)
  | decode | tone3200 | tone1600 => exact decodeFrame_phase_congr cfg _ _ hp

/-- Settles O1, register by register; a location of `PCM` by the read of the zero buffer. -/
theorem resetValues : Obligations.ResetValues := by
  intro r
  cases r with
  | pcm i => exact congrArg BitVec.toNat (Pcm.read_zero i)
  | phase | status | frameOut | pcmLen | lkFound | lkFh | lkFl => rfl

/-- Settles O7: each register that an instruction writes is given by its operands and, for DECODE, by the old phase. -/
theorem resultRegistersAreNoInputs : Obligations.ResultRegistersAreNoInputs := by
  intro i s s' t t' ht ht'
  obtain rfl := (exec_next_iff i s t).mp ht
  obtain rfl := (exec_next_iff i s' t').mp ht'
  refine ⟨effect_phase_congr i, ?_, ?_, ?_⟩
  · rintro tone rfl
    simp only [effect, State.setLookup_lkFound, State.setLookup_lkFh, State.setLookup_lkFl, and_self]
  · rintro cls tone gain rfl
    simp only [effect, encodeFrame_status, encodeFrame_header, Status.code_eq_zero_iff, ne_eq, true_and]
    refine ⟨fun hok => ?_, encodeFrame_tail_of_fail cls s⟩
    rw [encodeFrame_frameOut_of_ok cls s hok, encodeFrame_frameOut_of_ok cls s' hok]
  · intro cls f hf
    rw [effect_of_decodedFrame hf, effect_of_decodedFrame hf]
    exact ⟨decodeFrame_status_congr cfg cls f s s', (decodeFrame_pcmLen ..).trans (decodeFrame_pcmLen ..).symm,
      decodeFrame_audio_congr cfg cls f⟩

end Sys2Proof.Machine
end

section
/-!
PROOFS. The byte order of a frame (spec/20_memory.md R33): the bytes, the number and the fields of the concatenation of
eight bytes, and the header constants.
-/

namespace Sys2Proof.Machine

/-- Appending a byte below shifts the number up by one byte. -/
theorem toNat_append_byte {n : Nat} (x : BitVec n) (b : Byte) : (x ++ b).toNat = 256 * x.toNat + b.toNat := by
  rw [BitVec.toNat_append, Nat.shiftLeft_eq, Nat.mul_comm, ← Nat.two_pow_add_eq_or_of_lt b.isLt]

theorem frameHeader_toNat (f : Frame) : (frameHeader f).toNat = f.toNat / 2 ^ 24 := by
  have : f.toNat / 2 ^ 24 < 2 ^ 40 := by omega
  rw [frameHeader, BitVec.extractLsb'_toNat, Nat.shiftRight_eq_div_pow, Nat.mod_eq_of_lt this]

theorem headerOf_toNat (cls : FrameClass) : (headerOf cls).toNat = (silence cls).toNat / 2 ^ 24 :=
  frameHeader_toNat (silence cls)

theorem frameOfBytes_eq_none {bs : List Byte} (h : bs.length ≠ 8) : frameOfBytes bs = none := by
  unfold frameOfBytes
  split
  · exact absurd rfl h
  · rfl

section Bytes

variable (b0 b1 b2 b3 b4 b5 b6 b7 : Byte)

/-- Byte `k` of a concatenation of eight bytes is the `k`-th of them from the most significant end. -/
theorem map_frameByte_append : (List.range 8).map (frameByte (b0 ++ b1 ++ b2 ++ b3 ++ b4 ++ b5 ++ b6 ++ b7)) =
    [b0, b1, b2, b3, b4, b5, b6, b7] := by
  have range_eight : List.range 8 = [0, 1, 2, 3, 4, 5, 6, 7] := rfl
  simp (disch := decide) only [range_eight, List.map_cons, List.map_nil, frameByte, extract_append_low,
    extract_append_high, Nat.reduceMul, Nat.reduceSub, extract_all]

/-- The number of eight bytes is read as digits in base 256, byte 0 first. -/
theorem toNat_append_bytes : (b0 ++ b1 ++ b2 ++ b3 ++ b4 ++ b5 ++ b6 ++ b7).toNat =
    [b0, b1, b2, b3, b4, b5, b6, b7].foldl (fun n b => 256 * n + b.toNat) 0 := by
  simp only [toNat_append_byte, List.foldl_cons, List.foldl_nil, Nat.mul_zero, Nat.zero_add]

/-- The indicator is the high nibble of byte 5 (spec/30_encoding.md R50). -/
theorem frameIndicator_append :
    (frameIndicator (b0 ++ b1 ++ b2 ++ b3 ++ b4 ++ b5 ++ b6 ++ b7)).toNat = b5.toNat / 16 := by
  have nibble : frameIndicator (b0 ++ b1 ++ b2 ++ b3 ++ b4 ++ b5 ++ b6 ++ b7) = b5.extractLsb' 4 4 := by
    rw [frameIndicator, extract_append_high _ b7 _ _ (by decide), extract_append_high _ b6 _ _ (by decide),
      extract_append_low _ b5 _ _ (by decide)]
  rw [nibble, BitVec.extractLsb'_toNat, Nat.shiftRight_eq_div_pow]
  omega

/-- The gain step is the low nibble of byte 5 (spec/30_encoding.md R50). -/
theorem frameGainStep_append :
    (frameGainStep (b0 ++ b1 ++ b2 ++ b3 ++ b4 ++ b5 ++ b6 ++ b7)).toNat = b5.toNat % 16 := by
  have nibble : frameGainStep (b0 ++ b1 ++ b2 ++ b3 ++ b4 ++ b5 ++ b6 ++ b7) = b5.extractLsb' 0 4 := by
    rw [frameGainStep, extract_append_high _ b7 _ _ (by decide), extract_append_high _ b6 _ _ (by decide),
      extract_append_low _ b5 _ _ (by decide)]
  rw [nibble, BitVec.extractLsb'_toNat, Nat.shiftRight_zero]

end Bytes

/-- Settles O17: the concatenation that `frameOfBytes` answers has the given bytes, number and nibbles; the ten header
bytes are computed. -/
theorem framesAreBigEndian : Obligations.FramesAreBigEndian := by
  refine ⟨fun b0 b1 b2 b3 b4 b5 b6 b7 => ⟨_, rfl, ?_, ?_, ?_, ?_⟩, fun _ => frameOfBytes_eq_none,
    fun cls => (headerOf_toNat cls).symm, by decide, by decide⟩
  · exact map_frameByte_append b0 b1 b2 b3 b4 b5 b6 b7
  · exact toNat_append_bytes b0 b1 b2 b3 b4 b5 b6 b7
  · exact frameIndicator_append b0 b1 b2 b3 b4 b5 b6 b7
  · exact frameGainStep_append b0 b1 b2 b3 b4 b5 b6 b7

end Sys2Proof.Machine
end

section
/-!
PROOFS. The decoders case by case (spec/30_encoding.md R52 to R58): what a command word of each `op` is, a word under a
mask as the packing of its masked fields, and a frame with a tone pattern as the packing of its fields.
-/

namespace Sys2Proof

open Machine

/-! ### The command of each `op` -/

section

variable {w : CommandWord}

theorem decodeCommand_op_zero (h : cmdOp w = 0) : decodeCommand w = .ok .nop := by
  rw [decodeCommand, h]
  rfl

theorem decodeCommand_op_one (h : cmdOp w = 1) : decodeCommand w = .ok .init := by
  rw [decodeCommand, h]
  rfl

theorem decodeCommand_op_two (h : cmdOp w = 2) : decodeCommand w = .ok (.ldphase ((cmdData w).extractLsb' 0 32)) := by
  rw [decodeCommand, h]
  rfl

theorem decodeCommand_op_three (h : cmdOp w = 3) :
    decodeCommand w = .ok (.encode (cmdClass w) (cmdTone w) (cmdGain w)) := by
  rw [decodeCommand, h]
  rfl

theorem decodeCommand_op_four (h : cmdOp w = 4) : decodeCommand w = .ok (.decode (cmdClass w) (cmdData w)) := by
  rw [decodeCommand, h]
  rfl

theorem decodeCommand_op_five (h : cmdOp w = 5) : decodeCommand w = .ok (.lookup (cmdTone w)) := by
  rw [decodeCommand, h]
  rfl

theorem decodeCommand_op_reserved (h : cmdOp w = 6 ∨ cmdOp w = 7) :
    decodeCommand w = .error (.reservedOp (cmdOp w)) := by
  rcases h with h | h
  · rw [decodeCommand, h]
    rfl
  · rw [decodeCommand, h]
    rfl

/-- The codes of spec/30_encoding.md R55, the last two reserved. -/
theorem op_cases (op : BitVec 3) :
    op = 0 ∨ op = 1 ∨ op = 2 ∨ op = 3 ∨ op = 4 ∨ op = 5 ∨ (op = 6 ∨ op = 7) := by
  revert op
  decide

/-- What a word that decodes has for `op` and for fields (spec/30_encoding.md R54, R55). -/
theorem decodeCommand_ok_cases {i : Instr} (h : decodeCommand w = .ok i) :
    (cmdOp w = 0 ∧ i = .nop) ∨ (cmdOp w = 1 ∧ i = .init) ∨
    (cmdOp w = 2 ∧ i = .ldphase ((cmdData w).extractLsb' 0 32)) ∨
    (cmdOp w = 3 ∧ i = .encode (cmdClass w) (cmdTone w) (cmdGain w)) ∨
    (cmdOp w = 4 ∧ i = .decode (cmdClass w) (cmdData w)) ∨ (cmdOp w = 5 ∧ i = .lookup (cmdTone w)) := by
  rcases op_cases (cmdOp w) with op | op | op | op | op | op | op
  · cases (decodeCommand_op_zero op).symm.trans h
    simp [op]
  · cases (decodeCommand_op_one op).symm.trans h
    simp [op]
  · cases (decodeCommand_op_two op).symm.trans h
    simp [op]
  · cases (decodeCommand_op_three op).symm.trans h
    simp [op]
  · cases (decodeCommand_op_four op).symm.trans h
    simp [op]
  · cases (decodeCommand_op_five op).symm.trans h
    simp [op]
  · cases (decodeCommand_op_reserved op).symm.trans h

end

/-- Settles O43, by the decoder's answer for each of the eight codes. -/
theorem reservedOpsSelectNoCommand : Obligations.ReservedOpsSelectNoCommand := by
  intro w
  refine ⟨decodeCommand_op_reserved, fun h6 h7 => ?_⟩
  rcases op_cases (cmdOp w) with op | op | op | op | op | op | op
  · exact ⟨_, decodeCommand_op_zero op⟩
  · exact ⟨_, decodeCommand_op_one op⟩
  · exact ⟨_, decodeCommand_op_two op⟩
  · exact ⟨_, decodeCommand_op_three op⟩
  · exact ⟨_, decodeCommand_op_four op⟩
  · exact ⟨_, decodeCommand_op_five op⟩
  · exact absurd op (not_or.mpr ⟨h6, h7⟩)

/-! ### A word under a mask -/

theorem classBit_cmdClass (w : CommandWord) : classBit (cmdClass w) = w.extractLsb' 80 1 := by
  unfold cmdClass
  ext j hj
  obtain rfl : j = 0 := by omega
  cases h : w.getLsbD 80 <;> simpa [classBit] using h

/-- A command word is the packing of its fields. -/
theorem packCommand_fields (w : CommandWord) :
    packCommand (cmdOp w) (classBit (cmdClass w)) (cmdTone w) (cmdGain w) (cmdData w) = w := by
  simp (disch := rfl) only [classBit_cmdClass, packCommand, cmdOp, cmdTone, cmdGain, cmdData,
    BitVec.extractLsb'_append_extractLsb'_eq_extractLsb']
  exact extract_all w

theorem packCommand_and (op op' : BitVec 3) (cls cls' : BitVec 1) (tone tone' gain gain' : Byte) (data data' : BitVec 64) :
    packCommand op cls tone gain data &&& packCommand op' cls' tone' gain' data' =
      packCommand (op &&& op') (cls &&& cls') (tone &&& tone') (gain &&& gain') (data &&& data') := by
  simp only [packCommand, ← BitVec.and_append]

/-- A mask acts on a word field by field. -/
theorem and_packCommand (w : CommandWord) (op : BitVec 3) (cls : BitVec 1) (tone gain : Byte) (data : BitVec 64) :
    w &&& packCommand op cls tone gain data =
      packCommand (cmdOp w &&& op) (classBit (cmdClass w) &&& cls) (cmdTone w &&& tone) (cmdGain w &&& gain)
        (cmdData w &&& data) := by
  rw [← packCommand_and, packCommand_fields]

/-- The data field under the mask of its low 32 bits is the operand of LDPHASE, widened (spec/30_encoding.md R56). -/
theorem and_phaseMask (d : BitVec 64) : d &&& 0xFFFFFFFF = (d.extractLsb' 0 32).setWidth 64 := by
  have mask : (0xFFFFFFFF : BitVec 64) = (BitVec.allOnes 32).setWidth 64 := by decide
  rw [mask]
  ext j hj
  simp only [BitVec.getElem_and, BitVec.getElem_setWidth, BitVec.getLsbD_allOnes, BitVec.getLsbD_extractLsb',
    Nat.zero_add, Bool.and_comm, BitVec.getLsbD_eq_getElem hj]

/-- The fields of NOP and INIT, which use `op` alone (spec/30_encoding.md R54). -/
theorem and_opMask (w : CommandWord) : w &&& 0xE00000000000000000000 = packCommand (cmdOp w) 0 0 0 0 := by
  have mask : (0xE00000000000000000000 : CommandWord) = packCommand (.allOnes 3) 0 0 0 0 := by decide
  rw [mask, and_packCommand]
  simp only [BitVec.and_allOnes, BitVec.ofNat_eq_ofNat, BitVec.and_zero]

/-- The fields of LDPHASE (spec/30_encoding.md R54). -/
theorem and_opPhaseMask (w : CommandWord) : w &&& 0xE000000000000FFFFFFFF =
    packCommand (cmdOp w) 0 0 0 (((cmdData w).extractLsb' 0 32).setWidth 64) := by
  have mask : (0xE000000000000FFFFFFFF : CommandWord) = packCommand (.allOnes 3) 0 0 0 0xFFFFFFFF := by decide
  rw [mask, and_packCommand, and_phaseMask]
  simp only [BitVec.and_allOnes, BitVec.ofNat_eq_ofNat, BitVec.and_zero]

/-- The fields of ENCODE (spec/30_encoding.md R54). -/
theorem and_opClassToneGainMask (w : CommandWord) : w &&& 0xFFFFF0000000000000000 =
    packCommand (cmdOp w) (classBit (cmdClass w)) (cmdTone w) (cmdGain w) 0 := by
  have mask : (0xFFFFF0000000000000000 : CommandWord) =
      packCommand (.allOnes 3) (.allOnes 1) (.allOnes 8) (.allOnes 8) 0 := by decide
  rw [mask, and_packCommand]
  simp only [BitVec.and_allOnes, BitVec.ofNat_eq_ofNat, BitVec.and_zero]

/-- The fields of DECODE (spec/30_encoding.md R54). -/
theorem and_opClassDataMask (w : CommandWord) : w &&& 0xF0000FFFFFFFFFFFFFFFF =
    packCommand (cmdOp w) (classBit (cmdClass w)) 0 0 (cmdData w) := by
  have mask : (0xF0000FFFFFFFFFFFFFFFF : CommandWord) =
      packCommand (.allOnes 3) (.allOnes 1) 0 0 (.allOnes 64) := by decide
  rw [mask, and_packCommand]
  simp only [BitVec.and_allOnes, BitVec.ofNat_eq_ofNat, BitVec.and_zero]

/-- The fields of LOOKUP (spec/30_encoding.md R54). -/
theorem and_opToneMask (w : CommandWord) : w &&& 0xEFF000000000000000000 = packCommand (cmdOp w) 0 (cmdTone w) 0 0 := by
  have mask : (0xEFF000000000000000000 : CommandWord) = packCommand (.allOnes 3) 0 (.allOnes 8) 0 0 := by decide
  rw [mask, and_packCommand]
  simp only [BitVec.and_allOnes, BitVec.ofNat_eq_ofNat, BitVec.and_zero]

/-! ### A frame with a tone pattern -/

/-- A frame with the header of a class and the tone indicator is the tone frame of its other fields. -/
theorem toneFrame_fields {cls : FrameClass} {f : Frame} (hh : frameHeader f = headerOf cls)
    (hi : frameIndicator f = 0xF) : toneFrame cls (frameGainStep f) (frameToneIndex f) (frameChecksum f) = f := by
  rw [toneFrame, ← hh, ← hi, pack_fields]

/-- A wire frame that decodes is the encoding of what it decodes to (spec/30_encoding.md R52, R53). -/
theorem encode_of_decodeWire {f : Frame} {i : Instr} (h : decodeWire f = .ok i) : encode i = .wire f := by
  unfold decodeWire at h
  split_ifs at h with hi h3200 h1600
  · cases h
    exact congrArg InstrWord.wire (toneFrame_fields h3200 hi)
  · cases h
    exact congrArg InstrWord.wire (toneFrame_fields h1600 hi)

/-- Settles O40: under its op's mask a word keeps exactly the fields of the instruction it decodes to. -/
theorem unusedFieldsAreIgnored : Obligations.UnusedFieldsAreIgnored := by
  refine ⟨fun w i h => ?_, fun f i => encode_of_decodeWire⟩
  rcases decodeCommand_ok_cases h with ⟨op, rfl⟩ | ⟨op, rfl⟩ | ⟨op, rfl⟩ | ⟨op, rfl⟩ | ⟨op, rfl⟩ | ⟨op, rfl⟩
  · rw [op, encode]
    exact congrArg InstrWord.command (op ▸ and_opMask w).symm
  · rw [op, encode]
    exact congrArg InstrWord.command (op ▸ and_opMask w).symm
  · rw [op, encode]
    exact congrArg InstrWord.command (op ▸ and_opPhaseMask w).symm
  · rw [op, encode]
    exact congrArg InstrWord.command (op ▸ and_opClassToneGainMask w).symm
  · rw [op, encode]
    exact congrArg InstrWord.command (op ▸ and_opClassDataMask w).symm
  · rw [op, encode]
    exact congrArg InstrWord.command (op ▸ and_opToneMask w).symm

end Sys2Proof
end

section
/-!
PROOFS. The tests of DECODE (spec/30_encoding.md R51, spec/40_frame_codec.md R74): the status that DECODE leaves,
test by test, and the tests as arithmetic on the frame.
-/

namespace Sys2Proof.Machine

/-- DECODE's status is the outcome of its tests. -/
theorem decodeFrame_status (c : Config) (cls : FrameClass) (f : Frame) (s : State) :
    (decodeFrame c cls f s).status = match validate c cls f with
      | .error r => r
      | .ok _ => .ok := by
  cases h : validate c cls f with
  | error r => rw [decodeFrame_error c cls f s r h, State.fail_status]
  | ok e => rw [decodeFrame_ok c cls f s e h, State.setStatus_status]

/-- DECODE's status by the first test that fails (spec/40_frame_codec.md R74, spec/60_exceptions.md R142). -/
theorem decodeFrame_status_tests (cls : FrameClass) (f : Frame) (s : State) :
    (decodeFrame cfg cls f s).status =
      if frameHeader f ≠ headerOf cls then .headerMismatch
      else if frameByte f 7 ≠ frameSum f then .checksumMismatch
      else if frameIndicator f ≠ 0xF then .notToneIndicator
      else if ¬ frameToneIndex f ≤ cfg.maxIndex then .unknownToneIndex
      else .ok := by
  simp only [decodeFrame_status, ← romRead_eq_none]
  unfold validate
  split_ifs with hh hs hi hrom
  · rfl
  · rfl
  · rfl
  · rw [hrom]
  · obtain ⟨e, he⟩ := Option.ne_none_iff_exists'.mp hrom
    rw [he]

/-- I1 as a number (spec/30_encoding.md R51). -/
theorem frameHeader_eq_headerOf_iff (cls : FrameClass) (f : Frame) :
    frameHeader f = headerOf cls ↔ f.toNat / 2 ^ 24 = (silence cls).toNat / 2 ^ 24 := by
  rw [← BitVec.toNat_inj, frameHeader_toNat, headerOf_toNat]

/-- The checksum as a number (spec/40_frame_codec.md R70). -/
theorem checksum_toNat (b0 b1 b2 b3 b4 b5 b6 : Byte) : (checksum b0 b1 b2 b3 b4 b5 b6).toNat =
    255 - (b0.toNat + b1.toNat + b2.toNat + b3.toNat + b4.toNat + b5.toNat + b6.toNat) % 256 := by
  simp [checksum, BitVec.toNat_not, BitVec.toNat_add]

/-- I2 as a number (spec/30_encoding.md R51). -/
theorem frameByte_seven_eq_frameSum_iff (f : Frame) : frameByte f 7 = frameSum f ↔
    (f.extractLsb' 0 8).toNat = 255 - ((f.extractLsb' 56 8).toNat + (f.extractLsb' 48 8).toNat +
      (f.extractLsb' 40 8).toNat + (f.extractLsb' 32 8).toNat + (f.extractLsb' 24 8).toNat + (f.extractLsb' 16 8).toNat +
      (f.extractLsb' 8 8).toNat) % 256 := by
  rw [← BitVec.toNat_inj, frameSum, checksum_toNat]
  rfl

/-- Settles O20: the four propositions are DECODE's four tests, and its status is by the first that fails. -/
theorem decodeTestsTheInvariants : Obligations.DecodeTestsTheInvariants := by
  intro cls f s i1 i2 i3 i4 h1 h2 h3 h4
  have header : i1 ↔ frameHeader f = headerOf cls := h1.trans (frameHeader_eq_headerOf_iff cls f).symm
  have sum : i2 ↔ frameByte f 7 = frameSum f := h2.trans (frameByte_seven_eq_frameSum_iff f).symm
  have indicator : i3 ↔ frameIndicator f = 0xF := h3
  have index : i4 ↔ frameToneIndex f ≤ cfg.maxIndex := h4
  refine ⟨_, exec_eq_next _ s, ?_⟩
  simp only [effect, decodeFrame_status_tests, ne_eq, ite_not]
  split_ifs with t1 t2 t3 t4
  · simp [header.mpr t1, sum.mpr t2, indicator.mpr t3, index.mpr t4, Status.code]
  · simp [header.mpr t1, sum.mpr t2, indicator.mpr t3, mt index.mp t4, Status.code]
  · simp [header.mpr t1, sum.mpr t2, mt indicator.mp t3, Status.code]
  · simp [header.mpr t1, mt sum.mp t2, Status.code]
  · simp [mt header.mp t1, Status.code]

end Sys2Proof.Machine
end

section
/-!
PROOFS. ENCODE and DECODE in full (spec/40_frame_codec.md R72, R74): the status by the first failing test, and what each
leaves in every register it writes; from these the two obligations about their results.
-/

namespace Sys2Proof.Machine

/-! ### ENCODE -/

/-- The tests of ENCODE as numbers (spec/60_exceptions.md R143). -/
theorem encodeCheck_cfg (tone gain : Byte) : encodeCheck cfg tone gain =
    if tone.toNat > 0x74 then .indexOutOfRange else if gain.toNat > 15 then .gainOutOfRange else .ok := rfl

theorem encodeCheck_eq_ok_iff (tone gain : Byte) :
    encodeCheck cfg tone gain = .ok ↔ ¬ (tone.toNat > 0x74 ∨ gain.toNat > 15) := by
  rw [encodeCheck_cfg]
  split_ifs with ht hg
  · simp [ht]
  · simp [hg]
  · simp [ht, hg]

theorem encodeCheck_code (tone gain : Byte) : (encodeCheck cfg tone gain).code =
    if tone.toNat > 0x74 then 5 else if gain.toNat > 15 then 6 else 0 := by
  rw [encodeCheck_cfg]
  split_ifs <;> rfl

/-- A gain in range is its own low nibble (spec/30_encoding.md R56). -/
theorem gainByte_of_le {gain : Byte} (h : gain.toNat ≤ 15) : gainByte gain = 0xF0 ||| gain := by
  have nibble : (gain.extractLsb' 0 4).setWidth 8 = gain := by
    apply BitVec.eq_of_toNat_eq
    simp only [BitVec.toNat_setWidth, BitVec.extractLsb'_toNat, Nat.shiftRight_zero]
    omega
  rw [gainByte, nibble]

/-- The playable frame as the header over the three bytes that ENCODE builds (spec/40_frame_codec.md R72). -/
theorem playableFrame_eq_append (cls : FrameClass) (gain tone : Byte) :
    playableFrame cls (gain.extractLsb' 0 4) tone =
      headerOf cls ++ (gainByte gain ++ tone ++ headerSum (headerOf cls) (gainByte gain) tone) := by
  simp only [gainByte_eq, playableFrame, toneFrame, packFrame, BitVec.append_assoc, BitVec.cast_eq]

/-- Settles O18: the status is that of ENCODE's tests, and the frame is the playable one or the header over the old
bytes. -/
theorem encodeResult : Obligations.EncodeResult := by
  refine ⟨fun w => decodeCommand_op_three, fun cls tone gain s => ⟨_, exec_eq_next _ s, ?_, ?_, ?_⟩⟩
  · exact (congrArg Status.code (encodeFrame_status ..)).trans (encodeCheck_code tone gain)
  · by_cases h : tone.toNat > 0x74 ∨ gain.toNat > 15
    · rw [if_pos h]
      exact encodeFrame_frameOut_of_fail cls s fun hok => (encodeCheck_eq_ok_iff tone gain).mp hok h
    · rw [if_neg h, ← gainByte_of_le (Nat.le_of_not_lt (not_or.mp h).2)]
      exact (encodeFrame_frameOut_of_ok cls s ((encodeCheck_eq_ok_iff tone gain).mpr h)).trans
        (playableFrame_eq_append cls gain tone)
  · exact encodeFrame_frame cfg cls tone gain s

/-! ### DECODE -/

/-- The numeric code that DECODE leaves, by the first test that fails (spec/60_exceptions.md R140, R142). -/
theorem decodeFrame_code_tests (cls : FrameClass) (f : Frame) (s : State) :
    (decodeFrame cfg cls f s).status.code =
      if frameHeader f ≠ headerOf cls then 1
      else if frameByte f 7 ≠ frameSum f then 2
      else if frameIndicator f ≠ 0xF then 3
      else if romRead cfg (frameToneIndex f) = none then 4
      else 0 := by
  simp only [decodeFrame_status_tests, romRead_eq_none]
  split_ifs <;> rfl

/-- A test of DECODE that fails gives a reason. -/
theorem validate_ne_error_ok (c : Config) (cls : FrameClass) (f : Frame) : validate c cls f ≠ .error .ok := by
  unfold validate
  split_ifs
  · simp
  · simp
  · simp
  · cases romRead c (frameToneIndex f) <;> simp

section

variable {c : Config} {cls : FrameClass} {f : Frame}

theorem decodeFrame_code_of_error {r : Status} (h : validate c cls f = .error r) (s : State) :
    (decodeFrame c cls f s).status.code ≠ 0 := by
  rw [decodeFrame_error c cls f s r h, State.fail_status, ne_eq, Status.code_eq_zero_iff]
  rintro rfl
  exact validate_ne_error_ok c cls f h

theorem decodeFrame_code_of_ok {e : RomEntry} (h : validate c cls f = .ok e) (s : State) :
    (decodeFrame c cls f s).status.code = 0 := by
  rw [decodeFrame_ok c cls f s e h]
  rfl

theorem decodeFrame_phase_of_error {r : Status} (h : validate c cls f = .error r) (s : State) :
    (decodeFrame c cls f s).phase = s.phase := by
  rw [decodeFrame_error c cls f s r h, State.fail_phase, State.setAudio_phase]

theorem decodeFrame_phase_of_ok {e : RomEntry} (h : validate cfg cls f = .ok e) (s : State) :
    (decodeFrame cfg cls f s).phase.toNat = (s.phase.toNat + sampleCount cls) % 2 ^ 32 := by
  rw [decodeFrame_ok cfg cls f s e h, State.setStatus_phase, State.setPhase_phase, toNat_ofNat_advance, cfg_advance]

theorem decodeFrame_read_of_error {r : Status} (h : validate c cls f = .error r) (s : State) (i : Fin pcmSize) :
    (decodeFrame c cls f s).pcm.read i = if i.val < sampleCount cls then 0 else s.pcm.read i := by
  rw [decodeFrame_error c cls f s r h, State.fail_pcm, State.setAudio_pcm, Pcm.read_write]

theorem decodeFrame_read_of_ok {e : RomEntry} (h : validate c cls f = .ok e) (s : State) (i : Fin pcmSize) :
    (decodeFrame c cls f s).pcm.read i =
      if i.val < sampleCount cls then synthSample c e (frameGainStep f) s.phase.toNat i.val else s.pcm.read i := by
  rw [decodeFrame_ok c cls f s e h, State.setStatus_pcm, State.setPhase_pcm, State.setAudio_pcm, Pcm.read_write]

/-- DECODE leaves the tail of `PCM` as it was, whatever the frame (spec/40_frame_codec.md R74). -/
theorem decodeFrame_read_of_le (c : Config) (cls : FrameClass) (f : Frame) (s : State) {i : Fin pcmSize}
    (hi : sampleCount cls ≤ i.val) : (decodeFrame c cls f s).pcm.read i = s.pcm.read i := by
  cases h : validate c cls f with
  | error r => rw [decodeFrame_read_of_error h, if_neg (Nat.not_lt.mpr hi)]
  | ok e => rw [decodeFrame_read_of_ok h, if_neg (Nat.not_lt.mpr hi)]

end

theorem decodeFrame_pcmLen_toNat (c : Config) (cls : FrameClass) (f : Frame) (s : State) :
    (decodeFrame c cls f s).pcmLen.toNat = sampleCount cls := by
  rw [decodeFrame_pcmLen]
  cases cls <;> rfl

/-- DECODE's new phase: it advances exactly on success (spec/40_frame_codec.md R74). -/
theorem decodeFrame_phase_by_code (cls : FrameClass) (f : Frame) (s : State) :
    (decodeFrame cfg cls f s).phase.toNat =
      if (decodeFrame cfg cls f s).status.code = 0 then (s.phase.toNat + sampleCount cls) % 2 ^ 32
      else s.phase.toNat := by
  cases h : validate cfg cls f with
  | error r => rw [if_neg (decodeFrame_code_of_error h s), decodeFrame_phase_of_error h]
  | ok e => rw [if_pos (decodeFrame_code_of_ok h s), decodeFrame_phase_of_ok h]

/-- A DECODE that fails writes silence (spec/40_frame_codec.md R74). -/
theorem decodeFrame_read_of_code_ne_zero {cls : FrameClass} {f : Frame} {s : State}
    (hcode : (decodeFrame cfg cls f s).status.code ≠ 0) (i : Fin pcmSize) (hi : i.val < sampleCount cls) :
    (decodeFrame cfg cls f s).pcm.read i = 0 := by
  cases h : validate cfg cls f with
  | error r => rw [decodeFrame_read_of_error h, if_pos hi]
  | ok e => exact absurd (decodeFrame_code_of_ok h s) hcode

/-- A DECODE that succeeds writes the samples of the frame's table entry from the old phase on (spec/40_frame_codec.md
R74). -/
theorem decodeFrame_read_of_code_eq_zero {cls : FrameClass} {f : Frame} {s : State}
    (hcode : (decodeFrame cfg cls f s).status.code = 0) :
    ∃ e, romRead cfg (frameToneIndex f) = some e ∧ ∀ i : Fin pcmSize, i.val < sampleCount cls →
      (decodeFrame cfg cls f s).pcm.read i = synthSample cfg e (frameGainStep f) s.phase.toNat i.val := by
  cases h : validate cfg cls f with
  | error r => exact absurd hcode (decodeFrame_code_of_error h s)
  | ok e =>
    obtain ⟨-, -, -, hrom⟩ := (validate_eq_ok cfg cls f e).mp h
    exact ⟨e, hrom, fun i hi => by rw [decodeFrame_read_of_ok h, if_pos hi]⟩

/-- Settles O19: DECODE's status by its tests, then each register it writes by that status. -/
theorem decodeResult : Obligations.DecodeResult := by
  refine ⟨fun w => decodeCommand_op_four, fun cls f s n hn => ?_⟩
  obtain rfl : n = sampleCount cls := hn.trans (by cases cls <;> rfl)
  refine ⟨_, exec_eq_next _ s, ?_, ?_, ?_, ?_, ?_, ?_, ?_⟩
  · exact decodeFrame_code_tests cls f s
  · exact decodeFrame_pcmLen_toNat cfg cls f s
  · exact decodeFrame_phase_by_code cls f s
  · exact fun i => decodeFrame_read_of_le cfg cls f s
  · exact decodeFrame_read_of_code_ne_zero
  · exact decodeFrame_read_of_code_eq_zero
  · exact decodeFrame_frame cfg cls f s

end Sys2Proof.Machine
end

section
/-!
PROOFS. The tone table (spec/41_tone_table_rom.md): what `RomRead` answers in each bank, the DTMF entries as frequencies,
the notes as the rounding of equal temperament; from these the two obligations about the table and LOOKUP.
-/

namespace Sys2Proof.Machine

/-! ### LOOKUP -/

/-- Settles O9: LOOKUP is `setLookup` of what the table has, and `op` 5 selects it. -/
theorem lookupWritesTheEntry : Obligations.LookupWritesTheEntry := by
  refine ⟨fun w => decodeCommand_op_five, fun tone s => ?_⟩
  rw [exec_eq_next, effect]
  cases romRead cfg tone with
  | some e => rfl
  | none => rfl

/-! ### The banks -/

section

variable (c : Config) {k : Nat}

/-- The DTMF bank (spec/41_tone_table_rom.md R91, R92). -/
theorem romRead_dtmf (hk : k < 16) : romRead c (BitVec.ofNat 8 k) = c.dtmf[k]? := by
  have hbank : bank c (BitVec.ofNat 8 k) = some (.dtmf (BitVec.ofNat 8 k)) := by
    rw [bank, if_pos (by bv_omega)]
  have hoffset : (BitVec.ofNat 8 k).toNat = k := by bv_omega
  simp only [romRead, hbank, hoffset]

/-- The Knox bank (spec/41_tone_table_rom.md R91, R92). -/
theorem romRead_knox (hk : k < 16) : romRead c (BitVec.ofNat 8 (0x10 + k)) = c.knox[k]? := by
  have hbank : bank c (BitVec.ofNat 8 (0x10 + k)) = some (.knox (BitVec.ofNat 8 (0x10 + k) - 0x10)) := by
    rw [bank, if_neg (by bv_omega), if_pos (by bv_omega)]
  have hoffset : (BitVec.ofNat 8 (0x10 + k) - 0x10).toNat = k := by bv_omega
  simp only [romRead, hbank, hoffset]

/-- The note bank, up to the configured bound (spec/41_tone_table_rom.md R91, R92). -/
theorem romRead_note (hk : 0x20 + k ≤ c.maxIndex.toNat) :
    romRead c (BitVec.ofNat 8 (0x20 + k)) = c.notes[k]?.map fun f => ⟨f, f⟩ := by
  have hbank : bank c (BitVec.ofNat 8 (0x20 + k)) = some (.note (BitVec.ofNat 8 (0x20 + k) - 0x20)) := by
    rw [bank, if_neg (by bv_omega), if_neg (by bv_omega), if_pos (by bv_omega)]
  have hoffset : (BitVec.ofNat 8 (0x20 + k) - 0x20).toNat = k := by bv_omega
  simp only [romRead, hbank, hoffset]

end

/-! ### The DTMF and the Knox entries -/

theorem romRead_cfg_dtmf {k : Nat} (hk : k < 16) : romRead cfg (BitVec.ofNat 8 k) = some (dtmfEntry k) := by
  rw [romRead_dtmf cfg hk, cfg, dtmfBank, List.getElem?_map, List.getElem?_range hk, Option.map_some]

/-- The placeholder Knox entries (spec/41_tone_table_rom.md R96; log 7). -/
theorem romRead_cfg_knox {k : Nat} (hk : k < 16) :
    romRead cfg (BitVec.ofNat 8 (0x10 + k)) = some (dtmfEntry (15 - k)) := by
  rw [romRead_knox cfg hk, cfg, knoxBank, List.getElem?_map, List.getElem?_range hk, Option.map_some]

/-- A DTMF entry is its column's and its row's frequency (spec/41_tone_table_rom.md R94, R95). -/
theorem dtmfEntry_toNat : ∀ k < 16,
    (dtmfEntry k).fh.toNat = 100 * [1209, 1336, 1477, 1633].getD (k % 4) 0 ∧
    (dtmfEntry k).fl.toNat = 100 * [697, 770, 852, 941].getD (k / 4) 0 := by decide

/-! ### The notes -/

/-- The pitch of note `n` in centi-hertz: twelve equal steps to the octave, A4 at offset 57 (spec/41_tone_table_rom.md
R97). -/
noncomputable def notePitch (n : Nat) : ℝ := 100 * 440 * (2 : ℝ) ^ (((n : ℝ) - 57) / 12)

/-- `2 * f - 1` and `2 * f + 1` are on both sides of twice the pitch of note `n`, as a test in whole numbers: their twelfth
powers are compared, at the scale `2 ^ 57` (`two_mul_notePitch_pow`). -/
def RoundsPitch (f n : Nat) : Prop :=
  (2 * f - 1) ^ 12 * 2 ^ 57 < 88000 ^ 12 * 2 ^ n ∧ 88000 ^ 12 * 2 ^ n < (2 * f + 1) ^ 12 * 2 ^ 57

theorem notePitch_pos (n : Nat) : 0 < notePitch n := by
  unfold notePitch
  positivity

/-- The root of 2 goes away in the twelfth power. -/
theorem two_mul_notePitch_pow (n : Nat) : (2 * notePitch n) ^ 12 * 2 ^ 57 = 88000 ^ 12 * 2 ^ n := by
  have root : ((2 : ℝ) ^ (((n : ℝ) - 57) / 12)) ^ 12 * 2 ^ 57 = 2 ^ n := by
    rw [← Real.rpow_mul_natCast two_pos.le, ← Real.rpow_natCast 2 57, ← Real.rpow_add two_pos, ← Real.rpow_natCast 2 n]
    congr 1
    push_cast
    ring
  calc (2 * notePitch n) ^ 12 * 2 ^ 57
      = 88000 ^ 12 * (((2 : ℝ) ^ (((n : ℝ) - 57) / 12)) ^ 12 * 2 ^ 57) := by rw [notePitch]; ring
    _ = 88000 ^ 12 * 2 ^ n := by rw [root]

/-- What passes the test in whole numbers is within 1/2 of the pitch. -/
theorem abs_sub_notePitch_lt_of_roundsPitch {f n : Nat} (h : RoundsPitch f n) : |(f : ℝ) - notePitch n| < 1 / 2 := by
  obtain ⟨hlow, hhigh⟩ := h
  have hpos : 0 ≤ 2 * notePitch n := by linarith [notePitch_pos n]
  have low : ((2 * f - 1 : ℕ) : ℝ) < 2 * notePitch n := by
    refine lt_of_pow_lt_pow_left₀ 12 hpos (lt_of_mul_lt_mul_right ?_ (by positivity : (0 : ℝ) ≤ 2 ^ 57))
    rw [two_mul_notePitch_pow]
    exact_mod_cast hlow
  have high : 2 * notePitch n < ((2 * f + 1 : ℕ) : ℝ) := by
    refine lt_of_pow_lt_pow_left₀ 12 (Nat.cast_nonneg _) (lt_of_mul_lt_mul_right ?_ (by positivity : (0 : ℝ) ≤ 2 ^ 57))
    rw [two_mul_notePitch_pow]
    exact_mod_cast hhigh
  have pred : (2 * f : ℝ) ≤ ((2 * f - 1 : ℕ) : ℝ) + 1 := by exact_mod_cast (by omega : 2 * f ≤ 2 * f - 1 + 1)
  push_cast at high
  rw [abs_lt]
  constructor
  · linarith
  · linarith

/-- Every entry of the normative table passes (spec/41_tone_table_rom.md R97). -/
theorem noteBank_roundsPitch : ∀ i : Fin noteBank.length, RoundsPitch noteBank[i].toNat i := by
  unfold RoundsPitch
  decide

/-- The entry of a note: one frequency in both slots, within 1/2 of the pitch (spec/41_tone_table_rom.md R97). -/
theorem romRead_cfg_note {n : Nat} (hn : n ≤ 84) : ∃ f : CentiHertz,
    romRead cfg (BitVec.ofNat 8 (0x20 + n)) = some ⟨f, f⟩ ∧ |(f.toNat : ℝ) - notePitch n| < 1 / 2 := by
  have hlen : n < noteBank.length := Nat.lt_succ_of_le hn
  have hmax : 0x20 + n ≤ cfg.maxIndex.toNat := Nat.add_le_add_left hn 0x20
  refine ⟨noteBank[n], ?_, abs_sub_notePitch_lt_of_roundsPitch (noteBank_roundsPitch ⟨n, hlen⟩)⟩
  rw [romRead_note cfg hmax, cfg, List.getElem?_eq_getElem hlen, Option.map_some]

/-! ### The contents -/

/-- Settles O13, bank by bank; above the note bank nothing is mapped. -/
theorem tableContents : Obligations.TableContents := by
  refine ⟨fun k hk => ?_, fun k hk => ?_, fun n hn => romRead_cfg_note hn, fun idx hidx => ?_⟩
  · exact ⟨dtmfEntry k, romRead_cfg_dtmf hk, dtmfEntry_toNat k hk⟩
  · rw [romRead_cfg_knox hk, romRead_cfg_dtmf (Nat.sub_lt_succ 15 k)]
  · exact (romRead_eq_none idx).mpr (Nat.not_le.mpr hidx)

end Sys2Proof.Machine
end

section
/-!
PROOFS. The dual-tone synthesizer (spec/42_dual_tone_synthesizer.md): the machine's sample is the reference sample, the
samples and the phase of `Synth` at every width, and that a DECODE of a playable frame writes them; from these the two
obligations about the sample's value and about `Synth`.
-/

namespace Sys2Proof.Machine

/-! ### The sample -/

/-- The real sample by the reduced arguments, as the machine's `sampleAt` takes them: the sine has period one turn
(spec/42_dual_tone_synthesizer.md R112, R113). -/
theorem realSample_cfg (fh fl : CentiHertz) (g : GainStep) (p : Nat) : realSample cfg fh fl g p =
    800 * (g.toNat + 1) * (Real.sin (Laws.argOf (reduceArg p fh)) + Real.sin (Laws.argOf (reduceArg p fl))) := by
  rw [Laws.sin_reduceArg, Laws.sin_reduceArg, realSample, gainPercent, outputScale]
  simp only [cfg]
  ring

/-- The machine's sample is the reference, with no error (spec/42_dual_tone_synthesizer.md R114, R116; log 11). -/
theorem sample_toInt_eq_refSample (fh fl : CentiHertz) (g : GainStep) (p : Nat) :
    (sample cfg fh fl g p).toInt = refSample cfg fh fl g p := by
  rw [Laws.sample_toInt cfg Laws.cfg_scaleDen_pos, refSample, realSample_cfg]
  exact Laws.sampleAt_eq g _ _ (Nat.mod_lt _ (by decide)) (Nat.mod_lt _ (by decide)) doublings firstPrecision
    (by decide) (by decide)

/-- The real sample in the spec's units: frequencies in hertz, 8000 samples a second (spec/42_dual_tone_synthesizer.md
R111 to R113). -/
theorem realSample_hertz (fh fl : CentiHertz) (g : GainStep) (p : Nat) : realSample cfg fh fl g p =
    (((g.toNat : ℝ) + 1) * 6.25) * (Real.sin (p * 2 * Real.pi * (fh.toNat / 100) / 8000) / 2
      + Real.sin (p * 2 * Real.pi * (fl.toNat / 100) / 8000) / 2) * 256 := by
  have harg (f : CentiHertz) : sineArg p f = p * 2 * Real.pi * (f.toNat / 100) / 8000 := by
    rw [sineArg]
    ring
  rw [realSample, harg, harg, gainPercent, outputScale]
  simp only [cfg]
  ring

/-- Settles O29: the machine's sample is the reference, which is the clamped and truncated real value. -/
theorem sampleIsRoundedRealValue : Obligations.SampleIsRoundedRealValue := by
  intro fh fl g p
  rw [← realSample_hertz]
  exact sample_toInt_eq_refSample fh fl g p

/-! ### The sequence of samples -/

section

variable (c : Config) (e : RomEntry) (g : GainStep) (p0 n : Nat)

@[simp] theorem synth_length : (synth c e g p0 n).1.length = n := by
  rw [synth, List.length_map, List.length_range]

@[simp] theorem synth_phase : (synth c e g p0 n).2 = advance c p0 n := rfl

theorem synth_getElem? {i : Nat} (hi : i < n) : (synth c e g p0 n).1[i]? = some (sample c e.fh e.fl g (advance c p0 i)) := by
  rw [synth, List.getElem?_map, List.getElem?_range hi, Option.map_some, synthSample]

end

/-! ### DECODE -/

/-- A playable frame passes the tests of DECODE, with the entry of its index (spec/30_encoding.md R51). -/
theorem exists_validate_eq_ok_of_playable {cls : FrameClass} {f : Frame} (h : Playable cls f) :
    ∃ e, validate cfg cls f = .ok e := by
  have hok := (validate_playable cls f).mpr h
  cases hv : validate cfg cls f with
  | error r =>
    rw [hv] at hok
    cases hok
  | ok e => exact ⟨e, rfl⟩

/-- Settles O31: `Synth` by its two parts; a playable frame passes the tests, and DECODE then writes both. -/
theorem decodeWritesSynth : Obligations.DecodeWritesSynth := by
  refine ⟨fun e g p0 n => ⟨synth_length .., synth_phase .., fun i hi => synth_getElem? cfg e g p0 n hi⟩, ?_⟩
  intro cls f s hf
  obtain ⟨e, hv⟩ := exists_validate_eq_ok_of_playable hf
  obtain ⟨-, -, -, hrom⟩ := (validate_eq_ok cfg cls f e).mp hv
  exact ⟨_, e, exec_eq_next _ s, hrom, decodeFrame_audio_of_ok hv s, decodeFrame_phase_of_ok hv s⟩

end Sys2Proof.Machine
end

section
/-!
PROOFS. The commands of the phase accumulator (spec/43_phase_control.md R130 to R132): their words, and the state each
leaves.
-/

namespace Sys2Proof.Machine

/-- Settles O8: each command's effect is the write it states, the operand of LDPHASE fits `PHASE`, and its bits in the
word are the low ones of the data field. -/
theorem phaseCommandsWriteOnlyPhase : Obligations.PhaseCommandsWriteOnlyPhase := by
  refine ⟨exec_eq_next .nop, exec_eq_next .init, fun p s => ?_, fun w => decodeCommand_op_zero,
    fun w => decodeCommand_op_one, fun w h => ?_⟩
  · exact ⟨_, toNat_ofNat_operand p, exec_eq_next (.ldphase p) s⟩
  · rw [decodeCommand_op_two h, cmdData, BitVec.extractLsb'_extractLsb'_of_le (by decide)]

end Sys2Proof.Machine
end

section
/-!
PROOFS. The encodings read back (spec/30_encoding.md section 6) and the steps that take inputs from the port: which words
decode, that allowed inputs never stop the block (spec/70_reset_and_hazards.md section 5), and that instances step
independently (spec/20_memory.md R44).
-/

namespace Sys2Proof

open Machine

/-! ### Decode of encode -/

theorem decodeWire_of_c3200 {f : Frame} (hh : frameHeader f = headerOf .c3200) (hi : frameIndicator f = 0xF) :
    decodeWire f = .ok (.tone3200 (frameGainStep f) (frameToneIndex f) (frameChecksum f)) := by
  rw [decodeWire, if_pos hi, if_pos hh]

theorem decodeWire_of_c1600 {f : Frame} (hh : frameHeader f = headerOf .c1600) (hi : frameIndicator f = 0xF) :
    decodeWire f = .ok (.tone1600 (frameGainStep f) (frameToneIndex f) (frameChecksum f)) := by
  rw [decodeWire, if_pos hi, if_neg (by rw [hh]; decide), if_pos hh]

theorem decodeWire_toneFrame_c3200 (g : GainStep) (t c : Byte) :
    decodeWire (toneFrame .c3200 g t c) = .ok (.tone3200 g t c) := by
  simp only [toneFrame, decodeWire_of_c3200, frameHeader_pack, frameIndicator_pack, frameGainStep_pack,
    frameToneIndex_pack, frameChecksum_pack]

theorem decodeWire_toneFrame_c1600 (g : GainStep) (t c : Byte) :
    decodeWire (toneFrame .c1600 g t c) = .ok (.tone1600 g t c) := by
  simp only [toneFrame, decodeWire_of_c1600, frameHeader_pack, frameIndicator_pack, frameGainStep_pack,
    frameToneIndex_pack, frameChecksum_pack]

/-- Settles O39: by its `op` each packed command is read as its row, from the fields it was packed of; a tone frame by its
header. -/
theorem decodeOfEncode : Obligations.DecodeOfEncode := by
  intro i
  cases i with
  | nop => exact decodeCommand_op_zero (cmdOp_pack 0 0 0 0 0)
  | init => exact decodeCommand_op_one (cmdOp_pack 1 0 0 0 0)
  | ldphase p =>
    rw [encode, decode, decodeCommand_op_two (cmdOp_pack ..), cmdData_pack, BitVec.extractLsb'_setWidth_of_le (by decide),
      extract_all]
  | encode cls tone gain =>
    rw [encode, decode, decodeCommand_op_three (cmdOp_pack ..), cmdClass_pack, cmdTone_pack, cmdGain_pack]
  | decode cls f => rw [encode, decode, decodeCommand_op_four (cmdOp_pack ..), cmdClass_pack, cmdData_pack]
  | lookup tone => rw [encode, decode, decodeCommand_op_five (cmdOp_pack ..), cmdTone_pack]
  | tone3200 g t c => exact decodeWire_toneFrame_c3200 g t c
  | tone1600 g t c => exact decodeWire_toneFrame_c1600 g t c

/-- Settles O41, word by word. -/
theorem canonicalWordsDecode : Obligations.CanonicalWordsDecode :=
  ⟨rfl, rfl, rfl, rfl, rfl, rfl, rfl, rfl⟩

/-! ### The pattern of a bare frame -/

theorem append_eq_append_iff {m n : Nat} {x x' : BitVec m} {y y' : BitVec n} : x ++ y = x' ++ y' ↔ x = x' ∧ y = y' := by
  refine ⟨fun h => ⟨?_, ?_⟩, fun ⟨hx, hy⟩ => by rw [hx, hy]⟩
  · simpa only [BitVec.extractLsb'_append_eq_left] using congrArg (BitVec.extractLsb' n m) h
  · simpa only [BitVec.extractLsb'_append_eq_right] using congrArg (BitVec.extractLsb' 0 n) h

/-- Bits 63:20 are the pattern of a class exactly when header and indicator are (spec/30_encoding.md R52, R53). -/
theorem extract_pattern_iff (cls : FrameClass) (f : Frame) :
    f.extractLsb' 20 44 = headerOf cls ++ (0xF : GainStep) ↔ frameHeader f = headerOf cls ∧ frameIndicator f = 0xF := by
  have fields : f.extractLsb' 20 44 = frameHeader f ++ frameIndicator f :=
    (BitVec.extractLsb'_append_extractLsb'_eq_extractLsb' (start₂ := 24) (start₁ := 20) (len₁ := 4) (len₂ := 40) rfl).symm
  rw [fields, append_eq_append_iff]

theorem decodeWire_without_pattern {f : Frame}
    (h : ∀ cls, f.extractLsb' 20 44 ≠ headerOf cls ++ (0xF : GainStep)) : decodeWire f = .error (.noTonePattern f) := by
  simp only [ne_eq, extract_pattern_iff, not_and'] at h
  unfold decodeWire
  split_ifs with hi h3200 h1600
  · exact absurd h3200 (h .c3200 hi)
  · exact absurd h1600 (h .c1600 hi)
  · rfl
  · rfl

end Sys2Proof

namespace Sys2Proof.Machine

/-! ### One step -/

theorem step_word_ok {s : State} {w : InstrWord} {rest : List PortInput} {i : Instr} (hp : s.port = .word w :: rest)
    (hd : decode w = .ok i) : step s = .next (effect i (s.setPort rest)) := by
  rw [step_word hp, hd]
  exact exec_eq_next i _

theorem step_word_error {s : State} {w : InstrWord} {rest : List PortInput} {e : DecodeError}
    (hp : s.port = .word w :: rest) (hd : decode w = .error e) : step s = .refused (refusalOf e) := by
  rw [step_word hp, hd]

/-- Settles O2: a reset input is applied to the state without it. -/
theorem resetInputClearsEveryRegister : Obligations.ResetInputClearsEveryRegister :=
  fun _ _ hp => step_reset hp

/-- Settles O42, by the step's three cases. -/
theorem stepRunsTheDecodedInstruction : Obligations.StepRunsTheDecodedInstruction := by
  refine ⟨fun s w rest i hp hd => ?_, fun s => step_idle, step_withFetchWord⟩
  exact (step_word_ok hp hd).trans (exec_eq_next i _).symm

/-- Settles O44: the decoder's answer for the word's `op` is the step's. -/
theorem reservedOpsAreRefused : Obligations.ReservedOpsAreRefused := by
  intro s w rest hp
  obtain ⟨reserved, others⟩ := reservedOpsSelectNoCommand w
  refine ⟨fun h => step_word_error hp (reserved h), fun h6 h7 => ?_⟩
  obtain ⟨i, hd⟩ := others h6 h7
  exact ⟨_, step_word_ok hp hd⟩

/-- Settles O45: a frame decodes by its header exactly when its top 44 bits are a pattern. -/
theorem bareFramesWithoutPatternAreRefused : Obligations.BareFramesWithoutPatternAreRefused := by
  intro s f rest hp
  have pattern3200 : (0x010009439CF : BitVec 44) = headerOf .c3200 ++ (0xF : GainStep) := by decide
  have pattern1600 : (0x0100040025F : BitVec 44) = headerOf .c1600 ++ (0xF : GainStep) := by decide
  rw [pattern3200, pattern1600]
  refine ⟨?_, fun h3200 h1600 => ?_⟩
  · rintro (h | h)
    · obtain ⟨hh, hi⟩ := (extract_pattern_iff _ f).mp h
      exact ⟨_, step_word_ok hp (decodeWire_of_c3200 hh hi)⟩
    · obtain ⟨hh, hi⟩ := (extract_pattern_iff _ f).mp h
      exact ⟨_, step_word_ok hp (decodeWire_of_c1600 hh hi)⟩
  · refine step_word_error hp (decodeWire_without_pattern fun cls => ?_)
    cases cls with
    | c3200 => exact h3200
    | c1600 => exact h1600

/-! ### Runs of allowed inputs -/

/-- On allowed inputs a step completes and has taken one input, if there was one. -/
theorem step_of_allowed {s : State} (h : ∀ x ∈ s.port, PortInput.allowed x) :
    ∃ t, step s = .next t ∧ t.port = s.port.drop 1 := by
  rcases hp : s.port with _ | ⟨_ | _, rest⟩
  · exact ⟨s, step_idle hp, hp⟩
  case cons.word w =>
    obtain ⟨i, hd⟩ := h (.word w) (hp ▸ List.mem_cons_self)
    exact ⟨_, step_word_ok hp hd, effect_port i _⟩
  · exact ⟨_, step_reset hp, rfl⟩

theorem run_succ {M : Host.Core} {s t : M.State} (k : Nat) (h : M.step s = .next t) : M.run (k + 1) s = M.run k t := by
  rw [Host.Core.run, h]

/-- Settles O46, by induction on the number of steps: what is left at the port is allowed again. -/
theorem allowedInputsNeverStop : Obligations.AllowedInputsNeverStop := by
  intro k
  induction k with
  | zero => exact fun s _ => ⟨s, rfl, rfl⟩
  | succ k ih =>
    intro s h
    obtain ⟨t, hstep, hport⟩ := step_of_allowed h
    obtain ⟨u, hrun, hrest⟩ := ih t fun x hx => h x (List.mem_of_mem_drop (hport ▸ hx))
    refine ⟨u, (run_succ (M := core) k hstep).trans hrun, ?_⟩
    rw [hrest, hport, List.drop_drop, Nat.add_comm]

/-! ### Several instances -/

/-- The state a step leaves; a refused step leaves the block as it was. -/
def stepped (s : State) : State :=
  match step s with
  | .next t => t
  | .fault _ => s
  | .refused _ => s

theorem stepped_of_next {s t : State} (h : step s = .next t) : stepped s = t := by
  rw [stepped, h]

/-- A step at place `k` that answers is the step of the block there, and changes the list at that place only. -/
theorem stepInstance_next {k : Nat} {sys sys' : List State} (h : stepInstance k sys = .next sys') :
    sys' = sys.modify k stepped ∧ ∀ s, sys[k]? = some s → step s = .next (stepped s) := by
  induction sys generalizing k sys' with
  | nil =>
    cases k <;> cases h <;> simp
  | cons s others ih =>
    cases k with
    | zero =>
      cases hs : step s with
      | next t =>
        simp only [stepInstance, hs, Host.Outcome.next.injEq] at h
        simp [← h, stepped_of_next hs, hs]
      | fault r => simp [stepInstance, hs] at h
      | refused r => simp [stepInstance, hs] at h
    | succ k =>
      cases hs : stepInstance k others with
      | next ts =>
        simp only [stepInstance, hs, Host.Outcome.next.injEq] at h
        obtain ⟨hmodify, hstep⟩ := ih hs
        exact ⟨by rw [← h, hmodify, List.modify_succ_cons], hstep⟩
      | fault r => simp [stepInstance, hs] at h
      | refused r => simp [stepInstance, hs] at h

/-- Settles O47: a step changes the list at its place only, and changes at two places commute. -/
theorem instancesAreIndependent : Obligations.InstancesAreIndependent := by
  refine ⟨fun k sys sys' h => ?_, fun j k sys a b ab ba hjk ha hab hb hba => ?_⟩
  · obtain ⟨rfl, hstep⟩ := stepInstance_next h
    refine ⟨List.length_modify .., fun j hj => List.getElem?_modify_ne _ _ hj.symm, fun s hs => ⟨_, hstep s hs, ?_⟩⟩
    rw [List.getElem?_modify_eq, hs]
    rfl
  · rw [(stepInstance_next hab).1, (stepInstance_next hba).1, (stepInstance_next ha).1, (stepInstance_next hb).1]
    exact List.modify_modify_ne _ _ _ hjk

end Sys2Proof.Machine
end

section
/-!
PROOFS. The phase law (spec/43_phase_control.md R133): what one instruction does to `PHASE`, and the law over any sequence
of instructions, each of which completes.
-/

namespace Sys2Proof.Machine

/-! ### One instruction -/

/-- DECODE advances the phase by its samples exactly when its tests pass (spec/40_frame_codec.md R74). -/
theorem decodeFrame_phase (cls : FrameClass) (f : Frame) (s : State) : (decodeFrame cfg cls f s).phase =
    s.phase + BitVec.ofNat _ (if (validate cfg cls f).toBool then sampleCount cls else 0) := by
  cases hv : validate cfg cls f with
  | error r => exact (decodeFrame_phase_of_error hv s).trans (BitVec.add_zero _).symm
  | ok e =>
    rw [decodeFrame_ok cfg cls f s e hv, State.setStatus_phase, State.setPhase_phase, ofNat_advance]
    rfl

theorem effect_phase (i : Instr) (s : State) : (effect i s).phase = phaseLaw s.phase i := by
  cases i with
  | nop | init | ldphase => rfl
  | lookup tone => exact State.setLookup_phase s _
  | encode cls tone gain => exact (encodeFrame_frame cfg cls tone gain s).1
  | decode | tone3200 | tone1600 => exact decodeFrame_phase _ _ s

/-- Without INIT and LDPHASE the law is a sum. -/
theorem phaseLaw_eq_add {i : Instr} (h : i ≠ .init ∧ ∀ p, i ≠ .ldphase p) (p : Phase) :
    phaseLaw p i = p + BitVec.ofNat _ (samplesOf i) := by
  cases i with
  | init => exact absurd rfl h.1
  | ldphase q => exact absurd rfl (h.2 q)
  | nop | encode | lookup => exact (BitVec.add_zero p).symm
  | decode | tone3200 | tone1600 => rfl

theorem samplesOf_cases (i : Instr) : samplesOf i = 0 ∨ samplesOf i = 160 ∨ samplesOf i = 320 := by
  unfold samplesOf
  split
  case h_1 cls f _ =>
    split_ifs
    · cases cls with
      | c3200 => exact .inr (.inl rfl)
      | c1600 => exact .inr (.inr rfl)
    · exact .inl rfl
  case h_2 => exact .inl rfl

/-! ### Sequences -/

/-- Every sequence completes, with the effects of its instructions in their order. -/
theorem runAll_eq_next (is : List Instr) (s : State) : runAll is s = .next (is.foldl (fun t i => effect i t) s) := by
  induction is generalizing s with
  | nil => rfl
  | cons i is ih =>
    rw [runAll, exec_eq_next]
    exact ih (effect i s)

/-- Settles O12: a run of two instructions, of which the first writes the phase. -/
theorem decodepSuppliesThePhase : Obligations.DecodepSuppliesThePhase := by
  intro cls f p s
  rw [decodep, runAll_eq_next, exec_eq_next]
  rfl

theorem foldl_effect_phase (is : List Instr) (s : State) :
    (is.foldl (fun t i => effect i t) s).phase = is.foldl phaseLaw s.phase := by
  induction is generalizing s with
  | nil => rfl
  | cons i is ih => rw [List.foldl_cons, List.foldl_cons, ih, effect_phase]

/-- Settles O10: the sequence completes, and each of its effects follows the law. -/
theorem phaseLawOverRuns : Obligations.PhaseLawOverRuns :=
  fun is s => ⟨_, runAll_eq_next is s, foldl_effect_phase is s⟩

theorem foldl_phaseLaw_eq_add {is : List Instr} (h : ∀ i ∈ is, i ≠ .init ∧ ∀ p, i ≠ .ldphase p) (p : Phase) :
    is.foldl phaseLaw p = p + BitVec.ofNat _ (is.map samplesOf).sum := by
  induction is generalizing p with
  | nil => exact (BitVec.add_zero p).symm
  | cons i is ih =>
    obtain ⟨hi, his⟩ := List.forall_mem_cons.mp h
    rw [List.foldl_cons, ih his, phaseLaw_eq_add hi, BitVec.add_assoc, ← BitVec.ofNat_add, List.map_cons, List.sum_cons]

/-- A frame plays 160 or 320 samples or none, so the samples are counted by the frames of each length. -/
theorem sum_samplesOf (is : List Instr) : (is.map samplesOf).sum =
    160 * (is.countP fun i => samplesOf i == 160) + 320 * (is.countP fun i => samplesOf i == 320) := by
  induction is with
  | nil => rfl
  | cons i is ih =>
    rw [List.map_cons, List.sum_cons, ih, List.countP_cons, List.countP_cons]
    rcases samplesOf_cases i with h | h | h <;> simp [h] <;> ring

/-- Settles O11: the folded law is the sum of the samples played. -/
theorem phaseCountsPlayedFrames : Obligations.PhaseCountsPlayedFrames := by
  intro is s t h hrun
  obtain ⟨u, hu, hphase⟩ := phaseLawOverRuns is s
  obtain rfl : u = t := Host.Outcome.next.inj (hu.symm.trans hrun)
  rw [hphase, foldl_phaseLaw_eq_add h, toNat_add_ofNat, sum_samplesOf, Nat.add_assoc]

end Sys2Proof.Machine
end

section
/-!
PROOFS. The registers (spec/10_state.md sections 1, 2, 4 and 5): the host's reads determine the state, the invariant of the
registers at reset and over every step, and which command writes which register.
-/

namespace Sys2Proof.Machine

/-! ### The host's reads -/

theorem hostRead_lt (r : HostReg) (s : State) : hostRead r s < 2 ^ hostWidth r := by
  cases r with
  | lkFound => exact s.lkFound.toNat_lt
  | phase | status | frameOut | pcm | pcmLen | lkFh | lkFl => exact BitVec.isLt _

theorem Status.code_injective {r r' : Status} (h : r.code = r'.code) : r = r' := by
  revert h
  cases r <;> cases r' <;> decide

theorem toNat_bool_injective : ∀ b b' : Bool, b.toNat = b'.toNat → b = b' := by decide

/-- Settles O3: each register is given back by the number that the host reads. -/
theorem hostReadsDetermineTheState : Obligations.HostReadsDetermineTheState := by
  refine ⟨hostRead_lt, fun s t h hport => State.ext_fields ?_ ?_ ?_ ?_ ?_ ?_ ?_ ?_ hport⟩
  · exact BitVec.eq_of_toNat_eq (h .phase)
  · exact Status.code_injective (BitVec.eq_of_toNat_eq (h .status))
  · exact BitVec.eq_of_toNat_eq (h .frameOut)
  · exact Pcm.ext_read fun i => BitVec.eq_of_toNat_eq (h (.pcm i))
  · exact BitVec.eq_of_toNat_eq (h .pcmLen)
  · exact toNat_bool_injective _ _ (h .lkFound)
  · exact BitVec.eq_of_toNat_eq (h .lkFh)
  · exact BitVec.eq_of_toNat_eq (h .lkFl)

/-! ### The invariant -/

/-- Settles O4: every register is 0 at reset. -/
theorem invariantAtReset : Obligations.InvariantAtReset :=
  ⟨.inl rfl, ⟨fun i => by rw [State.reset, Pcm.read_zero]; decide, fun _ => Pcm.read_zero⟩, ⟨nofun, fun _ => ⟨rfl, rfl⟩⟩,
    .inl rfl, .inl rfl⟩

/-- LOOKUP leaves an entry of the table or zeros (spec/41_tone_table_rom.md R93). -/
theorem inv_setLookup {s : State} (h : Inv s) (tone : Byte) : Inv (s.setLookup (romRead cfg tone)) := by
  obtain ⟨hlength, haudio, -, hframe⟩ := h
  cases hrom : romRead cfg tone with
  | none => exact ⟨hlength, haudio, ⟨nofun, fun _ => ⟨rfl, rfl⟩⟩, hframe⟩
  | some e => exact ⟨hlength, haudio, ⟨fun _ => ⟨tone, hrom⟩, nofun⟩, hframe⟩

/-- ENCODE leaves its header, over the bytes of a frame it built or over the old ones (spec/40_frame_codec.md R72, R73). -/
theorem inv_encodeFrame {s : State} (h : Inv s) (cls : FrameClass) (tone gain : Byte) :
    Inv (encodeFrame cfg cls tone gain s) := by
  obtain ⟨hlength, haudio, hlookup, -, htail⟩ := h
  have hheader := encodeFrame_header cfg cls tone gain s
  by_cases hc : encodeCheck cfg tone gain = .ok
  · have htone : ¬ tone.toNat > 0x74 := (not_or.mp ((encodeCheck_eq_ok_iff tone gain).mp hc)).1
    rw [encodeFrame_ok cfg cls tone gain s hc] at hheader ⊢
    exact ⟨hlength, haudio, hlookup, .inr ⟨cls, hheader⟩, .inr ⟨cls, _, tone, Nat.le_of_not_lt htone, rfl⟩⟩
  · have hold := encodeFrame_tail_of_fail cls s hc
    rw [encodeFrame_fail cfg cls tone gain s _ hc rfl] at hheader hold ⊢
    exact ⟨hlength, haudio, hlookup, .inr ⟨cls, hheader⟩, by rwa [hold]⟩

theorem sample_bounds (fh fl : CentiHertz) (g : GainStep) (p : Nat) :
    -32760 ≤ (sample cfg fh fl g p).toInt ∧ (sample cfg fh fl g p).toInt ≤ 32760 := by
  rw [Laws.sample_toInt cfg Laws.cfg_scaleDen_pos]
  exact Laws.sampleAt_bounds cfg Laws.cfg_scaleDen_pos g _ _ _ _

/-- What DECODE leaves at a location of `PCM`: a sample, a zero, or the old value (spec/40_frame_codec.md R74). -/
theorem decodeFrame_read_cases (cls : FrameClass) (f : Frame) (s : State) (i : Fin pcmSize) :
    (∃ fh fl g p, (decodeFrame cfg cls f s).pcm.read i = sample cfg fh fl g p) ∨
      (decodeFrame cfg cls f s).pcm.read i = 0 ∨ (decodeFrame cfg cls f s).pcm.read i = s.pcm.read i := by
  cases hv : validate cfg cls f with
  | error r =>
    rw [decodeFrame_read_of_error hv]
    split_ifs
    · exact .inr (.inl rfl)
    · exact .inr (.inr rfl)
  | ok e =>
    rw [decodeFrame_read_of_ok hv]
    split_ifs
    · exact .inl ⟨_, _, _, _, rfl⟩
    · exact .inr (.inr rfl)

/-- DECODE leaves one of its two lengths and values within the clamp (spec/10_state.md R20). -/
theorem inv_decodeFrame {s : State} (h : Inv s) (cls : FrameClass) (f : Frame) : Inv (decodeFrame cfg cls f s) := by
  obtain ⟨-, ⟨hbounds, -⟩, hlookup, hframe⟩ := h
  obtain ⟨hout, hfound, hfh, hfl, -⟩ := decodeFrame_frame cfg cls f s
  have hlen : (decodeFrame cfg cls f s).pcmLen = 160 ∨ (decodeFrame cfg cls f s).pcmLen = 320 := by
    rw [decodeFrame_pcmLen]
    cases cls with
    | c3200 => exact .inl rfl
    | c1600 => exact .inr rfl
  refine ⟨.inr hlen, ⟨fun i => ?_, fun h0 => ?_⟩, ?_, ?_⟩
  · rcases decodeFrame_read_cases cls f s i with ⟨fh, fl, g, p, hread⟩ | hread | hread
    · rw [hread]
      exact sample_bounds fh fl g p
    · rw [hread]
      decide
    · rw [hread]
      exact hbounds i
  · rw [h0] at hlen
    exact absurd hlen (by decide)
  · rwa [LegalLookup, hfound, hfh, hfl]
  · rwa [LegalFrameOut, hout]

/-- Every instruction keeps the invariant. -/
theorem inv_effect {s : State} (h : Inv s) (i : Instr) : Inv (effect i s) := by
  cases i with
  | nop | init | ldphase => exact h
  | lookup tone => exact inv_setLookup h tone
  | encode cls tone gain => exact inv_encodeFrame h cls tone gain
  | decode | tone3200 | tone1600 => exact inv_decodeFrame h _ _

/-- Settles O5: the step idles, resets, or runs an instruction, and the port is no part of the invariant. -/
theorem stepKeepsInvariant : Obligations.StepKeepsInvariant := by
  intro s t h hstep
  rcases step_cases hstep with ⟨-, rfl⟩ | ⟨rest, -, rfl⟩ | ⟨w, rest, i, -, -, rfl⟩
  · exact h
  · exact invariantAtReset
  · exact inv_effect (s := s.setPort rest) h i

/-! ### Which command writes which register -/

theorem effect_lookup_frame {i : Instr} (h : ∀ tone, i ≠ .lookup tone) (s : State) :
    (effect i s).lkFound = s.lkFound ∧ (effect i s).lkFh = s.lkFh ∧ (effect i s).lkFl = s.lkFl := by
  cases i with
  | lookup tone => exact absurd rfl (h tone)
  | nop | init | ldphase => exact ⟨rfl, rfl, rfl⟩
  | encode cls tone gain =>
    obtain ⟨-, -, -, hfound, hfh, hfl, -⟩ := encodeFrame_frame cfg cls tone gain s
    exact ⟨hfound, hfh, hfl⟩
  | decode | tone3200 | tone1600 =>
    obtain ⟨-, hfound, hfh, hfl, -⟩ := decodeFrame_frame cfg _ _ s
    exact ⟨hfound, hfh, hfl⟩

theorem effect_frameOut_frame {i : Instr} (h : ∀ cls tone gain, i ≠ .encode cls tone gain) (s : State) :
    (effect i s).frameOut = s.frameOut := by
  cases i with
  | encode cls tone gain => exact absurd rfl (h cls tone gain)
  | nop | init | ldphase => rfl
  | lookup tone => exact State.setLookup_frameOut s _
  | decode | tone3200 | tone1600 => exact (decodeFrame_frame cfg _ _ s).1

theorem effect_status_frame {i : Instr} (h : ∀ cls tone gain, i ≠ .encode cls tone gain) (hd : decodedFrame i = none)
    (s : State) : (effect i s).status = s.status := by
  cases i with
  | encode cls tone gain => exact absurd rfl (h cls tone gain)
  | nop | init | ldphase => rfl
  | lookup tone => exact State.setLookup_status s _
  | decode | tone3200 | tone1600 => cases hd

theorem effect_audio_frame {i : Instr} (hd : decodedFrame i = none) (s : State) :
    (effect i s).pcm = s.pcm ∧ (effect i s).pcmLen = s.pcmLen := by
  cases i with
  | nop | init | ldphase => exact ⟨rfl, rfl⟩
  | lookup tone => exact ⟨State.setLookup_pcm s _, State.setLookup_pcmLen s _⟩
  | encode cls tone gain =>
    obtain ⟨-, hpcm, hlen, -⟩ := encodeFrame_frame cfg cls tone gain s
    exact ⟨hpcm, hlen⟩
  | decode | tone3200 | tone1600 => cases hd

/-- A DECODE that fails leaves the phase (spec/60_exceptions.md R145). -/
theorem decodeFrame_phase_of_code_ne_zero {cls : FrameClass} {f : Frame} {s : State}
    (h : (decodeFrame cfg cls f s).status.code ≠ 0) : (decodeFrame cfg cls f s).phase = s.phase := by
  refine BitVec.eq_of_toNat_eq ?_
  rw [decodeFrame_phase_by_code, if_neg h]

/-- No DECODE, INIT or LDPHASE: the phase law leaves the phase. -/
theorem effect_phase_frame {i : Instr} (hd : decodedFrame i = none) (h : i ≠ .init ∧ ∀ p, i ≠ .ldphase p) (s : State) :
    (effect i s).phase = s.phase := by
  have hsamples : samplesOf i = 0 := by rw [samplesOf, hd]
  rw [effect_phase, phaseLaw_eq_add h, hsamples]
  exact BitVec.add_zero s.phase

/-- Settles O6, register by register. -/
theorem onlyListedCommandsWrite : Obligations.OnlyListedCommandsWrite := by
  intro i s t ht
  obtain rfl := (exec_next_iff i s t).mp ht
  refine ⟨fun h => effect_lookup_frame h s, fun h => ⟨effect_frameOut_frame h s, fun hd => effect_status_frame h hd s⟩,
    fun hd => ?_, fun cls f hd hcode => ?_, effect_port i s⟩
  · obtain ⟨hpcm, hlen⟩ := effect_audio_frame hd s
    exact ⟨hpcm, hlen, fun hinit hload => effect_phase_frame hd ⟨hinit, hload⟩ s⟩
  · rw [effect_of_decodedFrame hd] at hcode ⊢
    exact decodeFrame_phase_of_code_ne_zero hcode

end Sys2Proof.Machine
end

section
/-!
PROOFS. The codec's derived laws (spec/40_frame_codec.md sections 1, 2 and 4, spec/30_encoding.md sections 1, 4 and 5): the
checksum as a number, DECODE's status on a packed frame, and from these what frames of each kind decode to, the round trip,
and what failures leave.
-/

namespace Sys2Proof.Machine

/-! ### The checksum -/

/-- Settles O16: both are the complement at 8 bits. -/
theorem checksumIsOnesComplementOfSum : Obligations.ChecksumIsOnesComplementOfSum := by
  intro b0 b1 b2 b3 b4 b5 b6
  refine ⟨checksum_toNat .., fun b7 => ?_⟩
  have hb7 := b7.isLt
  rw [← BitVec.toNat_inj, checksum_toNat]
  omega

/-- The sum of a class's five header bytes, modulo 256. -/
def headerTotal : FrameClass → Byte
  | .c3200 => 0xE9
  | .c1600 => 0x2A

theorem headerSum_headerOf (cls : FrameClass) (b5 b6 : Byte) :
    headerSum (headerOf cls) b5 b6 = ~~~(headerTotal cls + b5 + b6) := by
  have total : headerByte (headerOf cls) 0 + headerByte (headerOf cls) 1 + headerByte (headerOf cls) 2 +
      headerByte (headerOf cls) 3 + headerByte (headerOf cls) 4 = headerTotal cls := by
    cases cls <;> decide
  rw [headerSum, checksum, total]

theorem headerTotal_injective {a b : FrameClass} (h : headerTotal a = headerTotal b) : a = b := by
  revert h
  cases a <;> cases b <;> decide

/-- The checksums of the two classes differ on the same bytes 5 and 6. -/
theorem headerSum_headerOf_injective {a b : FrameClass} {b5 b6 : Byte}
    (h : headerSum (headerOf a) b5 b6 = headerSum (headerOf b) b5 b6) : a = b := by
  rw [headerSum_headerOf, headerSum_headerOf, BitVec.not_inj, BitVec.add_left_inj, BitVec.add_left_inj] at h
  exact headerTotal_injective h

/-! ### DECODE of a packed frame -/

theorem romRead_eq_none_iff_lt (t : Byte) : romRead cfg t = none ↔ t.toNat > 0x74 :=
  (romRead_eq_none t).trans Nat.not_le

/-- A frame with the class's header fails on its checksum, its indicator or its index, in that order (spec/40_frame_codec.md
R74). -/
theorem decodeFrame_code_pack (cls : FrameClass) (i g : GainStep) (t k : Byte) (s : State) :
    (decodeFrame cfg cls (packFrame (headerOf cls) i g t k) s).status.code =
      if k ≠ headerSum (headerOf cls) (i ++ g) t then 2 else if i ≠ 0xF then 3 else if t.toNat > 0x74 then 4 else 0 := by
  simp only [decodeFrame_code_tests, frameHeader_pack, frameByte_pack_seven, frameSum_pack, frameIndicator_pack,
    frameToneIndex_pack, romRead_eq_none_iff_lt, ne_eq, not_true_eq_false, if_false]

theorem decodeFrame_code_of_header_ne {cls : FrameClass} {f : Frame} (h : frameHeader f ≠ headerOf cls) (s : State) :
    (decodeFrame cfg cls f s).status.code = 1 := by
  rw [decodeFrame_code_tests, if_pos h]

theorem decodeFrame_code_of_sum_ne {cls : FrameClass} {f : Frame} (hh : frameHeader f = headerOf cls)
    (h : frameByte f 7 ≠ frameSum f) (s : State) : (decodeFrame cfg cls f s).status.code = 2 := by
  rw [decodeFrame_code_tests, if_neg (not_not.mpr hh), if_pos h]

theorem decodeFrame_code_toneFrame (cls : FrameClass) (g : GainStep) (t k : Byte) (s : State) :
    (decodeFrame cfg cls (toneFrame cls g t k) s).status.code =
      if k ≠ ~~~(headerTotal cls + ((0xF : GainStep) ++ g) + t) then 2 else if t.toNat > 0x74 then 4 else 0 := by
  rw [toneFrame, decodeFrame_code_pack, headerSum_headerOf, if_neg (not_not.mpr rfl)]

theorem toneFrame_eq_append {cls : FrameClass} {pattern : BitVec 44} (h : headerOf cls ++ (0xF : GainStep) = pattern)
    (g : GainStep) (t k : Byte) : toneFrame cls g t k = pattern ++ g ++ t ++ k := by
  rw [toneFrame, packFrame, h]

/-- Settles O21: a bare frame's effect is the DECODE of the frame packed of its fields. -/
theorem toneFramesAreDecoded : Obligations.ToneFramesAreDecoded := by
  have pattern3200 : headerOf .c3200 ++ (0xF : GainStep) = 0x010009439CF#44 := by decide
  have pattern1600 : headerOf .c1600 ++ (0xF : GainStep) = 0x0100040025F#44 := by decide
  refine ⟨fun g t k s => ?_, fun g t k s => ?_⟩
  · rw [← toneFrame_eq_append pattern3200]
    exact ⟨rfl, _, exec_eq_next _ s, decodeFrame_code_toneFrame .c3200 g t k s, decodeFrame_phase_by_code _ _ s⟩
  · rw [← toneFrame_eq_append pattern1600]
    exact ⟨rfl, _, exec_eq_next _ s, decodeFrame_code_toneFrame .c1600 g t k s, decodeFrame_phase_by_code _ _ s⟩

/-- A byte is its two nibbles. -/
theorem nibbles_append (b : Byte) : b.extractLsb' 4 4 ++ b.extractLsb' 0 4 = b :=
  (BitVec.extractLsb'_append_extractLsb'_eq_extractLsb' rfl).trans (extract_all b)

/-- A class's header over any three bytes, as a packed frame (spec/30_encoding.md R50). -/
theorem headerOf_append_bytes (cls : FrameClass) (b5 b6 b7 : Byte) : headerOf cls ++ b5 ++ b6 ++ b7 =
    packFrame (headerOf cls) (b5.extractLsb' 4 4) (b5.extractLsb' 0 4) b6 b7 := by
  have nibbles : headerOf cls ++ b5.extractLsb' 4 4 ++ b5.extractLsb' 0 4 = headerOf cls ++ b5 := by
    rw [BitVec.append_assoc, BitVec.cast_eq, nibbles_append]
  rw [packFrame, nibbles]

theorem decodeFrame_code_bytes (cls : FrameClass) (b5 b6 b7 : Byte) (s : State) :
    (decodeFrame cfg cls (headerOf cls ++ b5 ++ b6 ++ b7) s).status.code =
      if b7 ≠ headerSum (headerOf cls) b5 b6 then 2 else if b5.toNat / 16 ≠ 15 then 3 else if b6.toNat > 0x74 then 4 else 0 := by
  have indicator : b5.extractLsb' 4 4 = 0xF ↔ b5.toNat / 16 = 15 := by
    rw [← BitVec.toNat_inj, BitVec.extractLsb'_toNat, Nat.shiftRight_eq_div_pow]
    have : b5.toNat / 2 ^ 4 < 2 ^ 4 := by omega
    rw [Nat.mod_eq_of_lt this]
    rfl
  simp only [headerOf_append_bytes, decodeFrame_code_pack, nibbles_append, ne_eq, indicator]

/-- Settles O24: the checksum passes, and the outcome is by the tests that follow it. -/
theorem rightChecksumOutcome : Obligations.RightChecksumOutcome := by
  intro cls b5 b6 s
  refine ⟨_, exec_eq_next _ s, (decodeFrame_code_bytes ..).trans ?_⟩
  rw [if_neg (not_not.mpr rfl)]

/-- Settles O25: the one byte is the checksum of the others. -/
theorem oneChecksumBytePasses : Obligations.OneChecksumBytePasses := by
  intro cls b5 b6
  have passes (b7 : Byte) (s : State) : (decodeFrame cfg cls (headerOf cls ++ b5 ++ b6 ++ b7) s).status.code ≠ 2 ↔
      b7 = headerSum (headerOf cls) b5 b6 := by
    rw [decodeFrame_code_bytes]
    by_cases h : b7 = headerSum (headerOf cls) b5 b6
    · rw [if_neg (not_not.mpr h)]
      split_ifs <;> simp [h]
    · simp [h]
  refine ⟨headerSum (headerOf cls) b5 b6, fun s => ⟨_, exec_eq_next _ s, (passes _ s).mpr rfl⟩, fun b7 h => ?_⟩
  obtain ⟨t, ht, hcode⟩ := h State.reset
  obtain rfl := (exec_next_iff _ _ t).mp ht
  exact (passes b7 State.reset).mp hcode

/-- Settles O26: the header of one class is not that of the other. -/
theorem toneFrameHasOneClass : Obligations.ToneFrameHasOneClass := by
  rintro cls other f s ⟨hh, -, -⟩ hne
  refine ⟨_, exec_eq_next _ s, decodeFrame_code_of_header_ne (fun h => hne ?_) s⟩
  exact headerOf_injective (h.symm.trans hh)

/-! ### One flipped bit -/

theorem frameByte_xor (f d : Frame) (k : Nat) : frameByte (f ^^^ d) k = frameByte f k ^^^ frameByte d k :=
  BitVec.extractLsb'_xor

theorem frameHeader_xor (f d : Frame) : frameHeader (f ^^^ d) = frameHeader f ^^^ frameHeader d :=
  BitVec.extractLsb'_xor

theorem xor_eq_self_iff {n : Nat} (x d : BitVec n) : x ^^^ d = x ↔ d = 0 := by
  rw [← BitVec.xor_right_inj (x := d) x, BitVec.ofNat_eq_ofNat, BitVec.xor_zero]

/-- A bit from 24 on is one of the header's (spec/30_encoding.md R50). -/
theorem frameHeader_bit : ∀ k : Fin 64, 24 ≤ k.val → frameHeader (1#64 <<< k.val) ≠ 0 := by decide

/-- A bit below 24 is in exactly one of bytes 5 to 7 (spec/30_encoding.md R50). -/
theorem frameByte_bit : ∀ k : Fin 64, ¬ 24 ≤ k.val → frameHeader (1#64 <<< k.val) = 0 ∧
    (∀ j < 5, frameByte (1#64 <<< k.val) j = 0) ∧
    (frameByte (1#64 <<< k.val) 5 ≠ 0 ∧ frameByte (1#64 <<< k.val) 6 = 0 ∧ frameByte (1#64 <<< k.val) 7 = 0 ∨
      frameByte (1#64 <<< k.val) 5 = 0 ∧ frameByte (1#64 <<< k.val) 6 ≠ 0 ∧ frameByte (1#64 <<< k.val) 7 = 0 ∨
      frameByte (1#64 <<< k.val) 5 = 0 ∧ frameByte (1#64 <<< k.val) 6 = 0 ∧ frameByte (1#64 <<< k.val) 7 ≠ 0) := by
  decide

/-- A checksum is wrong after a change of exactly one of bytes 5 to 7. -/
theorem frameSum_xor_ne {f d : Frame} (h : frameByte f 7 = frameSum f) (hlow : ∀ j < 5, frameByte d j = 0)
    (hone : frameByte d 5 ≠ 0 ∧ frameByte d 6 = 0 ∧ frameByte d 7 = 0 ∨
      frameByte d 5 = 0 ∧ frameByte d 6 ≠ 0 ∧ frameByte d 7 = 0 ∨
      frameByte d 5 = 0 ∧ frameByte d 6 = 0 ∧ frameByte d 7 ≠ 0) :
    frameByte (f ^^^ d) 7 ≠ frameSum (f ^^^ d) := by
  intro h'
  simp only [frameSum, checksum, frameByte_xor, hlow 0, hlow 1, hlow 2, hlow 3, hlow 4, Nat.reduceLT,
    BitVec.ofNat_eq_ofNat, BitVec.xor_zero] at h h'
  rcases hone with ⟨h5, h6, h7⟩ | ⟨h5, h6, h7⟩ | ⟨h5, h6, h7⟩
  · rw [h6, h7, BitVec.ofNat_eq_ofNat, BitVec.xor_zero, BitVec.xor_zero, h, BitVec.not_inj, BitVec.add_left_inj,
      BitVec.add_right_inj, eq_comm, xor_eq_self_iff] at h'
    exact h5 h'
  · rw [h5, h7, BitVec.ofNat_eq_ofNat, BitVec.xor_zero, BitVec.xor_zero, h, BitVec.not_inj, BitVec.add_right_inj,
      eq_comm, xor_eq_self_iff] at h'
    exact h6 h'
  · rw [h5, h6, BitVec.ofNat_eq_ofNat, BitVec.xor_zero, BitVec.xor_zero, ← h, xor_eq_self_iff] at h'
    exact h7 h'

theorem decodeFrame_code_flip {cls : FrameClass} {f : Frame} (hf : ToneFrame cls f) (s : State) (k : Fin 64) :
    (decodeFrame cfg cls (f ^^^ 1#64 <<< k.val) s).status.code = if 24 ≤ k.val then 1 else 2 := by
  obtain ⟨hh, hsum, -⟩ := hf
  split_ifs with hk
  · refine decodeFrame_code_of_header_ne ?_ s
    rw [frameHeader_xor, hh, ne_eq, xor_eq_self_iff]
    exact frameHeader_bit k hk
  · obtain ⟨hheader, hlow, hone⟩ := frameByte_bit k hk
    refine decodeFrame_code_of_sum_ne ?_ (frameSum_xor_ne hsum hlow hone) s
    rw [frameHeader_xor, hh, xor_eq_self_iff, hheader]

/-- Settles O23: the flip changes the header, or one byte under the checksum. -/
theorem oneFlippedBitIsCaught : Obligations.OneFlippedBitIsCaught := by
  intro cls f s k hf
  have hcode := decodeFrame_code_flip hf s k
  refine ⟨_, exec_eq_next _ s, hcode, decodeFrame_phase_of_code_ne_zero ?_⟩
  rw [hcode]
  split_ifs <;> decide

/-! ### The round trip -/

theorem frameToneIndex_playableFrame (cls : FrameClass) (g : GainStep) (t : Byte) :
    frameToneIndex (playableFrame cls g t) = t := frameToneIndex_pack ..

theorem frameGainStep_playableFrame (cls : FrameClass) (g : GainStep) (t : Byte) :
    frameGainStep (playableFrame cls g t) = g := frameGainStep_pack ..

/-- DECODE of the class plays its playable frame, with the entry of its tone index (spec/40_frame_codec.md section 4). -/
theorem validate_playableFrame (cls : FrameClass) (g : GainStep) {t : Byte} {e : RomEntry} (hrom : romRead cfg t = some e) :
    validate cfg cls (playableFrame cls g t) = .ok e := by
  refine (validate_eq_ok ..).mpr ⟨frameHeader_pack .., ?_, frameIndicator_pack .., ?_⟩
  · exact (frameByte_pack_seven ..).trans (frameSum_pack ..).symm
  · rwa [frameToneIndex_playableFrame]

theorem exists_romRead {t : Byte} (ht : t.toNat ≤ 0x74) : ∃ e, romRead cfg t = some e :=
  Option.ne_none_iff_exists'.mp (mt (romRead_eq_none_iff_lt t).mp (Nat.not_lt.mpr ht))

/-- Settles O22: ENCODE's frame is the playable one, and the gain step is the low nibble of the gain. -/
theorem encodeThenDecodePlays : Obligations.EncodeThenDecodePlays := by
  intro cls tone gain s p0 htone hgain
  have hc : encodeCheck cfg tone gain = .ok :=
    (encodeCheck_eq_ok_iff tone gain).mpr (not_or.mpr ⟨Nat.not_lt.mpr htone, Nat.not_lt.mpr hgain⟩)
  have hframe : (effect (.encode cls tone gain) s).frameOut = playableFrame cls (gain.extractLsb' 0 4) tone :=
    encodeFrame_frameOut_of_ok cls s hc
  obtain ⟨e, hrom⟩ := exists_romRead htone
  have he := validate_playableFrame cls (gain.extractLsb' 0 4) hrom
  refine ⟨_, _, exec_eq_next _ s, ?_, exec_eq_next _ _, ?_, ?_, ?_, ?_⟩
  · exact congrArg Status.code ((encodeFrame_status ..).trans hc)
  · rw [hframe]
    exact decodeFrame_code_of_ok he _
  · rw [hframe]
    exact decodeFrame_phase_of_ok he _
  · rw [hframe]
    exact frameToneIndex_playableFrame ..
  · rw [hframe, frameGainStep_playableFrame, BitVec.extractLsb'_toNat, Nat.shiftRight_zero]
    omega

/-! ### Failures -/

/-- Settles O27: a failed DECODE leaves the phase, the only register that a DECODE reads. -/
theorem failedDecodeLeavesTheStream : Obligations.FailedDecodeLeavesTheStream := by
  intro cls f cls' f' s a ha hcode
  obtain rfl := (exec_next_iff _ s a).mp ha
  have hphase := decodeFrame_phase_of_code_ne_zero hcode
  exact ⟨_, _, exec_eq_next _ s, exec_eq_next _ _, decodeFrame_status_congr .., decodeFrame_phase_congr _ _ _ hphase,
    decodeFrame_audio_congr _ _ _ hphase⟩

/-- A frame with another header over its bytes 5 to 7. -/
theorem header_append_tail (h h' : Header) (i g : GainStep) (t k : Byte) :
    h' ++ (packFrame h i g t k).extractLsb' 0 24 = packFrame h' i g t k := by
  have tail (h : Header) : packFrame h i g t k = h ++ (i ++ g ++ t ++ k) := by
    simp only [packFrame, BitVec.append_assoc, BitVec.cast_eq]
  rw [tail h, tail h', BitVec.extractLsb'_append_eq_right]

/-- Settles O28: the failed ENCODE puts its header over the bytes of the earlier frame. -/
theorem failedEncodeKeepsOldBytes : Obligations.FailedEncodeKeepsOldBytes := by
  intro cls tone gain cls' tone' gain' s t u ht hok hu hfail
  obtain rfl := (exec_next_iff _ s t).mp ht
  obtain rfl := (exec_next_iff _ _ u).mp hu
  rw [Status.code_eq_zero_iff] at hok
  rw [ne_eq, Status.code_eq_zero_iff] at hfail
  have hframe := encodeFrame_frameOut_of_ok cls s ((encodeFrame_status ..).symm.trans hok)
  have hkept := encodeFrame_frameOut_of_fail cls' (encodeFrame cfg cls tone gain s)
    fun h => hfail ((encodeFrame_status ..).trans h)
  rw [hframe, playableFrame, toneFrame, header_append_tail] at hkept
  refine ⟨?_, fun hne => ⟨_, exec_eq_next _ _, ?_⟩⟩
  · rintro rfl
    exact hkept.trans hframe.symm
  · simp only [effect, hkept]
    rw [decodeFrame_code_pack, if_pos fun h => hne (headerSum_headerOf_injective h.symm)]

end Sys2Proof.Machine
end

section
/-!
PROOFS. The tone table's laws and its bound as a parameter (spec/41_tone_table_rom.md section 6): what a lower `MAX_INDEX`
changes in `RomRead`, in the tests of ENCODE and DECODE, and that no sample depends on it.
-/

namespace Sys2Proof.Machine

/-! ### The laws of the contents -/

/-- Settles O14, entry by entry over the 256 indices. -/
theorem tableLaws : Obligations.TableLaws := by
  have laws : ∀ idx : Byte, ∀ e ∈ romRead cfg idx, 0 < e.fl.toNat ∧ e.fl.toNat ≤ e.fh.toNat ∧ e.fh.toNat < 400000 ∧
      (e.fh = e.fl ↔ 0x20 ≤ idx.toNat) ∧ (idx.toNat < 0x20 → 100 ∣ e.fh.toNat ∧ 100 ∣ e.fl.toNat) := by
    decide +kernel
  exact laws

/-! ### Samples at another bound -/

section

variable {c c' : Config} (hn : c.scaleNum = c'.scaleNum) (hd : c.scaleDen = c'.scaleDen)

include hn hd

theorem roundAt_congr (g : GainStep) (K : Nat) (a : Int) : roundAt c g K a = roundAt c' g K a := by
  rw [roundAt, roundAt, hn, hd]

theorem sampleAt_congr (g : GainStep) (kH kL fuel K : Nat) : sampleAt c g kH kL fuel K = sampleAt c' g kH kL fuel K := by
  induction fuel generalizing K with
  | zero => simp only [Laws.sampleAt_unfold_zero, roundAt_congr hn hd]
  | succ fuel ih => simp only [Laws.sampleAt_unfold_succ, roundAt_congr hn hd, ih]

/-- A sample depends on no parameter but the output scale. -/
theorem sample_congr (fh fl : CentiHertz) (g : GainStep) (p : Nat) : sample c fh fl g p = sample c' fh fl g p := by
  rw [sample, sample, sampleAt_congr hn hd]

theorem synthSample_congr (hw : c.phaseWidth = c'.phaseWidth) (e : RomEntry) (g : GainStep) (p0 : Nat) :
    synthSample c e g p0 = synthSample c' e g p0 := by
  funext i
  rw [synthSample, synthSample, advance, advance, hw, sample_congr hn hd]

end

/-! ### The tests of DECODE and the table -/

/-- On a frame that is no tone frame the tests do not come to the table. -/
theorem validate_congr_of_not_toneFrame {cls : FrameClass} {f : Frame} (h : ¬ ToneFrame cls f) (c c' : Config) :
    validate c cls f = validate c' cls f := by
  unfold validate
  split_ifs with h1 h2 h3
  · rfl
  · rfl
  · rfl
  · exact absurd ⟨not_not.mp h1, not_not.mp h2, not_not.mp h3⟩ h

theorem validate_of_unmapped {c : Config} {cls : FrameClass} {f : Frame} (h : ToneFrame cls f)
    (hrom : romRead c (frameToneIndex f) = none) : validate c cls f = .error .unknownToneIndex := by
  obtain ⟨hh, hsum, hi⟩ := h
  rw [validate, if_neg (not_not.mpr hh), if_neg (not_not.mpr hsum), if_neg (not_not.mpr hi), hrom]

/-! ### Another bound -/

/-- This model's configuration with another `MAX_INDEX` (spec/41_tone_table_rom.md R99; log 6). -/
def boundedCfg (m : Byte) : Config := { cfg with maxIndex := m }

theorem boundedCfg_synthSample (m : Byte) : synthSample (boundedCfg m) = synthSample cfg := by
  funext e g p0
  exact synthSample_congr rfl rfl rfl e g p0

theorem boundedCfg_encodeCheck (m tone gain : Byte) : encodeCheck (boundedCfg m) tone gain =
    if m.toNat < tone.toNat then .indexOutOfRange else if 15 < gain.toNat then .gainOutOfRange else .ok := rfl

theorem boundedCfg_encodeFrame {m tone : Byte} (hhigh : m.toNat ≤ 0x74) (cls : FrameClass) (gain : Byte) (s : State)
    (h : tone.toNat ≤ m.toNat) :
    encodeFrame (boundedCfg m) cls tone gain s = encodeFrame cfg cls tone gain s := by
  have check : encodeCheck (boundedCfg m) tone gain = encodeCheck cfg tone gain := by
    rw [boundedCfg_encodeCheck, encodeCheck_cfg, if_neg (Nat.not_lt.mpr h), if_neg (Nat.not_lt.mpr (h.trans hhigh))]
  rw [encodeFrame, encodeFrame, check]

section

variable {m : Byte} (hlow : 0x1F ≤ m.toNat) (hhigh : m.toNat ≤ 0x74)

include hlow hhigh

/-- The bound cuts the note bank only. -/
theorem boundedCfg_bank (idx : Byte) : bank (boundedCfg m) idx = if idx.toNat ≤ m.toNat then bank cfg idx else none := by
  simp only [bank, boundedCfg, cfg, BitVec.le_def, BitVec.ofNat_eq_ofNat, BitVec.toNat_ofNat]
  by_cases hdtmf : idx.toNat ≤ 0x0F
  · have hm : idx.toNat ≤ m.toNat := by omega
    simp [hdtmf, hm]
  by_cases hknox : idx.toNat ≤ 0x1F
  · have hm : idx.toNat ≤ m.toNat := by omega
    simp [hknox, hm]
  · have hm : idx.toNat ≤ m.toNat → idx.toNat ≤ 0x74 := fun h => h.trans hhigh
    simp +contextual [hdtmf, hknox, hm]

theorem boundedCfg_romRead (idx : Byte) :
    romRead (boundedCfg m) idx = if idx.toNat ≤ m.toNat then romRead cfg idx else none := by
  rw [romRead, boundedCfg_bank hlow hhigh]
  split_ifs
  · rfl
  · rfl

theorem boundedCfg_validate_of_error {cls : FrameClass} {f : Frame} {r : Status} (hv : validate cfg cls f = .error r) :
    validate (boundedCfg m) cls f = .error r := by
  by_cases htone : ToneFrame cls f
  · have unmapped : romRead cfg (frameToneIndex f) = none := by
      cases hrom : romRead cfg (frameToneIndex f) with
      | none => rfl
      | some e => cases hv.symm.trans ((validate_eq_ok cfg cls f e).mpr ⟨htone.1, htone.2.1, htone.2.2, hrom⟩)
    have bounded : romRead (boundedCfg m) (frameToneIndex f) = none := by
      rw [boundedCfg_romRead hlow hhigh, unmapped, ite_self]
    rw [validate_of_unmapped htone bounded, ← validate_of_unmapped htone unmapped, hv]
  · rw [validate_congr_of_not_toneFrame htone _ cfg, hv]

theorem boundedCfg_decodeFrame (cls : FrameClass) (f : Frame) (s : State) : decodeFrame (boundedCfg m) cls f s =
    if (decodeFrame cfg cls f s).status = .ok ∧ m.toNat < (frameToneIndex f).toNat
    then (s.setAudio (sampleCount cls) fun _ => 0).fail .unknownToneIndex
    else decodeFrame cfg cls f s := by
  cases hv : validate cfg cls f with
  | error r =>
    have failed : (decodeFrame cfg cls f s).status ≠ .ok := mt (Status.code_eq_zero_iff _).mpr (decodeFrame_code_of_error hv s)
    rw [if_neg fun h => failed h.1, decodeFrame_error _ cls f s r hv,
      decodeFrame_error _ cls f s r (boundedCfg_validate_of_error hlow hhigh hv)]
  | ok e =>
    have passed := (Status.code_eq_zero_iff _).mp (decodeFrame_code_of_ok hv s)
    obtain ⟨hh, hsum, hi, hrom⟩ := (validate_eq_ok cfg cls f e).mp hv
    have bounded := boundedCfg_romRead hlow hhigh (frameToneIndex f)
    by_cases hm : m.toNat < (frameToneIndex f).toNat
    · rw [if_neg (Nat.not_le.mpr hm)] at bounded
      rw [if_pos ⟨passed, hm⟩,
        decodeFrame_error _ cls f s _ (validate_of_unmapped ⟨hh, hsum, hi⟩ bounded)]
    · rw [if_pos (Nat.not_lt.mp hm), hrom] at bounded
      rw [if_neg fun h => hm h.2, decodeFrame_ok _ cls f s e hv,
        decodeFrame_ok _ cls f s e ((validate_eq_ok _ cls f e).mpr ⟨hh, hsum, hi, bounded⟩), boundedCfg_synthSample]
      rfl

end

/-- Settles O15: the bound is read by the table and by ENCODE's first test only. -/
theorem lowerBoundOnlyCutsTheTable : Obligations.LowerBoundOnlyCutsTheTable := by
  rintro m c hlow hhigh rfl
  refine ⟨boundedCfg_romRead hlow hhigh, boundedCfg_encodeCheck m,
    fun cls tone gain s h => boundedCfg_encodeFrame hhigh cls gain s h, fun fh fl g p => sample_congr rfl rfl fh fl g p,
    fun e g p0 n => ?_, boundedCfg_decodeFrame hlow hhigh⟩
  exact congrArg (fun f => ((List.range n).map (f e g p0), advance cfg p0 n)) (boundedCfg_synthSample m)

end Sys2Proof.Machine
end

section
/-!
PROOFS. The derived laws of `Sample` and `Synth` (spec/42_dual_tone_synthesizer.md sections 4 and 5, spec/10_state.md
section 3, spec/70_reset_and_hazards.md section 3): the machine's sample is the rounding of the real sample, so rounding's
symmetries carry the sine's over to it; and how syntheses and decoded frames join.
-/

namespace Sys2Proof.Laws

/-! ### Rounding -/

theorem truncReal_neg (w : ℝ) : truncReal (-w) = -truncReal w := by
  rcases lt_trichotomy w 0 with hw | rfl | hw
  · rw [truncReal, truncReal, if_pos (by linarith), if_neg (not_le.mpr hw), Int.floor_neg]
  · simp [truncReal]
  · rw [truncReal, truncReal, if_neg (by linarith), if_pos hw.le, Int.ceil_neg]

theorem clampReal_neg (v : ℝ) : clampReal (-v) = -clampReal v := by
  rw [clampReal, clampReal, min_def, min_def, max_def, max_def]
  split_ifs <;> linarith

theorem roundReal_neg (v : ℝ) : roundReal (-v) = -roundReal v := by
  rw [roundReal, roundReal, clampReal_neg, truncReal_neg]

/-- An integer within the clamp is rounded to itself. -/
theorem roundReal_intCast {n : Int} (h : |n| ≤ 32760) : roundReal n = n := by
  obtain ⟨hlow, hhigh⟩ := abs_le.mp h
  have clamped : clampReal n = n := by
    rw [clampReal, max_eq_left (by exact_mod_cast hlow), min_eq_left (by exact_mod_cast hhigh)]
  have whole := truncReal_div n 1 one_pos
  rwa [Int.cast_one, div_one, Int.tdiv_one, ← clamped] at whole

theorem roundReal_zero : roundReal 0 = 0 := by
  exact_mod_cast roundReal_intCast (n := 0) (by decide)

theorem abs_roundReal (v : ℝ) : |roundReal v| = roundReal |v| := by
  rcases le_total 0 v with hv | hv
  · rw [abs_of_nonneg hv, abs_of_nonneg (roundReal_zero ▸ roundReal_mono hv)]
  · rw [abs_of_nonpos hv, abs_of_nonpos (roundReal_zero ▸ roundReal_mono hv), roundReal_neg]

/-- The four exactly known sines (spec/42_dual_tone_synthesizer.md R117). -/
theorem sin_argOf_of_mem_exactSines {k : Nat} {a : Int} (h : (k, a) ∈ exactSines) : Real.sin (argOf k) = a := by
  simp only [exactSines, List.mem_cons, Prod.mk.injEq, List.not_mem_nil, or_false] at h
  rcases h with ⟨rfl, rfl⟩ | ⟨rfl, rfl⟩ | ⟨rfl, rfl⟩ | ⟨rfl, rfl⟩
  · simp [argOf]
  · have : argOf 200000 = Real.pi / 2 := by rw [argOf]; push_cast; ring
    simp [this]
  · have : argOf 400000 = Real.pi := by rw [argOf]; push_cast; ring
    simp [this]
  · have : argOf 600000 = Real.pi / 2 + Real.pi := by rw [argOf]; push_cast; ring
    rw [this, Real.sin_add_pi, Real.sin_pi_div_two]
    simp

end Sys2Proof.Laws

namespace Sys2Proof.Machine

/-! ### The sample as a rounded real value -/

/-- The sum of a sample's two sines (spec/42_dual_tone_synthesizer.md R113). -/
noncomputable def sineSum (fh fl : CentiHertz) (p : Nat) : ℝ := Real.sin (sineArg p fh) + Real.sin (sineArg p fl)

theorem sineSum_swap (fh fl : CentiHertz) (p : Nat) : sineSum fh fl p = sineSum fl fh p := add_comm _ _

/-- The machine's sample is half the amplitude times the sum of the sines, rounded (spec/42_dual_tone_synthesizer.md R114). -/
theorem sample_toInt_eq_roundReal (fh fl : CentiHertz) (g : GainStep) (p : Nat) :
    (sample cfg fh fl g p).toInt = Laws.roundReal (800 * (g.toNat + 1) * sineSum fh fl p) := by
  rw [sample_toInt_eq_refSample, sineSum, ← Laws.sin_reduceArg, ← Laws.sin_reduceArg, ← realSample_cfg]
  rfl

/-- Settles O30: at tolerance 0 the machine's sample is the only value that conforms, and it is within the clamp. -/
theorem conformingSamplesAreTheMachines : Obligations.ConformingSamplesAreTheMachines := by
  intro hw
  have conforms (fh fl : CentiHertz) (g : GainStep) (p : Nat) :
      (|(hw fh fl g p).toInt - refSample cfg fh fl g p| ≤ cfg.sampleTol ∧
        -32760 ≤ (hw fh fl g p).toInt ∧ (hw fh fl g p).toInt ≤ 32760) ↔ hw fh fl g p = sample cfg fh fl g p := by
    have tolerance : (cfg.sampleTol : Int) = 0 := rfl
    rw [tolerance, abs_nonpos_iff, sub_eq_zero, ← sample_toInt_eq_refSample, BitVec.toInt_inj]
    refine ⟨And.left, fun h => ⟨h, ?_⟩⟩
    rw [h]
    exact sample_bounds fh fl g p
  simp only [Conforms, conforms, cfg_phaseWidth]

/-! ### Laws of `Sample` -/

theorem sample_phase_zero (fh fl : CentiHertz) (g : GainStep) : sample cfg fh fl g 0 = 0 := by
  have silent : sineSum fh fl 0 = 0 := by simp [sineSum, sineArg]
  rw [← BitVec.toInt_inj, sample_toInt_eq_roundReal, silent, mul_zero, Laws.roundReal_zero]
  rfl

theorem sample_swap (fh fl : CentiHertz) (g : GainStep) (p : Nat) : sample cfg fh fl g p = sample cfg fl fh g p := by
  rw [← BitVec.toInt_inj, sample_toInt_eq_roundReal, sample_toInt_eq_roundReal, sineSum_swap]

/-- A sample depends on its phase by the two reduced arguments only. -/
theorem sample_reduceArg_congr {c : Config} {fh fl : CentiHertz} {p q : Nat} (hh : reduceArg p fh = reduceArg q fh)
    (hl : reduceArg p fl = reduceArg q fl) (g : GainStep) : sample c fh fl g p = sample c fh fl g q := by
  rw [sample, sample, hh, hl]

theorem reduceArg_congr {p q : Nat} (h : p % 800000 = q % 800000) (f : CentiHertz) : reduceArg p f = reduceArg q f :=
  Nat.ModEq.mul_right f.toNat h

/-- A whole-hertz frequency repeats after one second, 8000 samples. -/
theorem reduceArg_congr_hertz {p q : Nat} (h : p % 8000 = q % 8000) {f : CentiHertz} (hf : 100 ∣ f.toNat) :
    reduceArg p f = reduceArg q f := by
  obtain ⟨hertz, hf⟩ := hf
  have seconds : p * 100 ≡ q * 100 [MOD 8000 * 100] := Nat.ModEq.mul_right' 100 h
  have cycles := seconds.mul_right hertz
  rwa [mul_assoc, mul_assoc, ← hf] at cycles

theorem sample_periodic {p q : Nat} (h : p % 800000 = q % 800000) (c : Config) (fh fl : CentiHertz) (g : GainStep) :
    sample c fh fl g p = sample c fh fl g q :=
  sample_reduceArg_congr (reduceArg_congr h fh) (reduceArg_congr h fl) g

/-- Settles O33: zero and symmetry by the real sample, periods by the reduced arguments. -/
theorem sampleSymmetricAndPeriodic : Obligations.SampleSymmetricAndPeriodic := by
  intro fh fl g p q
  refine ⟨sample_phase_zero fh fl g, sample_swap fh fl g p, fun h => sample_periodic h cfg fh fl g, fun hh hl h => ?_⟩
  exact sample_reduceArg_congr (reduceArg_congr_hertz h hh) (reduceArg_congr_hertz h hl) g

/-- Around a multiple of the period the sine is odd. -/
theorem sin_sineArg_neg {p q : Nat} (h : (p + q) % 800000 = 0) (f : CentiHertz) :
    Real.sin (sineArg q f) = -Real.sin (sineArg p f) := by
  obtain ⟨turns, hturns⟩ := Nat.dvd_of_mod_eq_zero h
  have hq : (q : ℝ) = 800000 * turns - p := by
    rw [eq_sub_iff_add_eq, add_comm]
    exact_mod_cast hturns
  have reflected : sineArg q f = (turns * f.toNat : ℕ) * (2 * Real.pi) - sineArg p f := by
    rw [sineArg, sineArg, hq]
    push_cast
    ring
  rw [reflected, Real.sin_nat_mul_two_pi_sub]

theorem abs_sample_toInt (fh fl : CentiHertz) (g : GainStep) (p : Nat) :
    |(sample cfg fh fl g p).toInt| = Laws.roundReal (800 * (g.toNat + 1) * |sineSum fh fl p|) := by
  rw [sample_toInt_eq_roundReal, Laws.abs_roundReal, abs_mul, abs_of_nonneg (by positivity)]

theorem abs_sineSum_le (fh fl : CentiHertz) (p : Nat) : |sineSum fh fl p| ≤ 2 := by
  have hh := Real.abs_sin_le_one (sineArg p fh)
  have hl := Real.abs_sin_le_one (sineArg p fl)
  rw [sineSum]
  linarith [abs_add_le (Real.sin (sineArg p fh)) (Real.sin (sineArg p fl))]

/-- The bound by the amplitude, which lies within the clamp at every gain step. -/
theorem abs_sample_toInt_le (fh fl : CentiHertz) (g : GainStep) (p : Nat) :
    |(sample cfg fh fl g p).toInt| ≤ 1600 * (g.toNat + 1) := by
  have hg := g.isLt
  have amplitude : 800 * ((g.toNat : ℝ) + 1) * |sineSum fh fl p| ≤ ((1600 * (g.toNat + 1) : Int) : ℝ) := by
    calc 800 * ((g.toNat : ℝ) + 1) * |sineSum fh fl p| ≤ 800 * (g.toNat + 1) * 2 := by
          gcongr
          exact abs_sineSum_le fh fl p
      _ = ((1600 * (g.toNat + 1) : Int) : ℝ) := by push_cast; ring
  calc |(sample cfg fh fl g p).toInt| = Laws.roundReal (800 * (g.toNat + 1) * |sineSum fh fl p|) := abs_sample_toInt ..
    _ ≤ Laws.roundReal ((1600 * (g.toNat + 1) : Int) : ℝ) := Laws.roundReal_mono amplitude
    _ = 1600 * (g.toNat + 1) := Laws.roundReal_intCast (by rw [abs_of_nonneg (by positivity)]; omega)

/-- Settles O34: rounding is odd and monotone, as the real sample is in its phase and its gain. -/
theorem sampleOddBoundedMonotone : Obligations.SampleOddBoundedMonotone := by
  intro fh fl g h p q
  refine ⟨abs_sample_toInt_le fh fl g p, fun hpq => ?_, fun hgh => ?_⟩
  · have odd : sineSum fh fl q = -sineSum fh fl p := by
      rw [sineSum, sineSum, sin_sineArg_neg hpq, sin_sineArg_neg hpq, neg_add]
    rw [sample_toInt_eq_roundReal, sample_toInt_eq_roundReal, odd, mul_neg, Laws.roundReal_neg]
  · rw [abs_sample_toInt, abs_sample_toInt]
    refine Laws.roundReal_mono ?_
    gcongr

/-- Settles O35: at the exact points the real sample is an integer. -/
theorem sampleAtExactPoints : Obligations.SampleAtExactPoints := by
  intro fh fl g p a b ha hb
  have exact_sum : sineSum fh fl p = ((a + b : Int) : ℝ) := by
    rw [sineSum, ← Laws.sin_reduceArg, ← Laws.sin_reduceArg, Int.cast_add]
    exact congrArg₂ (· + ·) (Laws.sin_argOf_of_mem_exactSines ha) (Laws.sin_argOf_of_mem_exactSines hb)
  have value : (800 * (g.toNat + 1) * sineSum fh fl p : ℝ) = ((800 * (g.toNat + 1) * (a + b) : Int) : ℝ) := by
    rw [exact_sum]
    push_cast
    ring
  have inside : |800 * ((g.toNat : Int) + 1) * (a + b)| ≤ 32760 := by
    have hsum : |a + b| ≤ 2 := by exact_mod_cast exact_sum ▸ abs_sineSum_le fh fl p
    have hg := g.isLt
    calc |800 * ((g.toNat : Int) + 1) * (a + b)| = 800 * (g.toNat + 1) * |a + b| := by
          rw [abs_mul, abs_of_nonneg (by positivity)]
      _ ≤ 800 * (g.toNat + 1) * 2 := by gcongr
      _ ≤ 32760 := by omega
  rw [sample_toInt_eq_roundReal, value, Laws.roundReal_intCast inside]

/-! ### Laws of `Synth` -/

/-- Settles O32: the width is a parameter of `advance`, by which `Synth` counts. -/
theorem phaseHasTheConfiguredWidth : Obligations.PhaseHasTheConfiguredWidth :=
  ⟨rfl, rfl, fun s => s.phase.isLt, fun c e g p0 n => ⟨synth_phase .., fun _ hi => synth_getElem? c e g p0 n hi⟩⟩

theorem synthSample_add (c : Config) (e : RomEntry) (g : GainStep) (p0 n i : Nat) :
    synthSample c e g p0 (n + i) = synthSample c e g (advance c p0 n) i := by
  rw [synthSample, synthSample, advance_advance]

/-- Settles O36: the indices split, and each later phase is counted from the phase the first part leaves. -/
theorem synthSplitsAnywhere : Obligations.SynthSplitsAnywhere := by
  intro c e g p0 n1 n2
  refine ⟨?_, (advance_advance c p0 n1 n2).symm⟩
  simp only [synth, List.range_add, List.map_append, List.map_map]
  congr 1
  exact List.map_congr_left fun i _ => synthSample_add c e g p0 n1 i

/-! ### Decoded frames -/

section

variable {t : Byte} {e : RomEntry} (hrom : romRead cfg t = some e) (cls : FrameClass) (g : GainStep) (s : State)

include hrom

theorem decodeFrame_playableFrame_audio : (decodeFrame cfg cls (playableFrame cls g t) s).audio =
    (synth cfg e g s.phase.toNat (sampleCount cls)).1 := by
  rw [decodeFrame_audio_of_ok (validate_playableFrame cls g hrom), frameGainStep_playableFrame]
  rfl

theorem decodeFrame_playableFrame_phase : (decodeFrame cfg cls (playableFrame cls g t) s).phase.toNat =
    (synth cfg e g s.phase.toNat (sampleCount cls)).2 :=
  decodeFrame_phase_of_ok (validate_playableFrame cls g hrom) s

end

/-- Settles O37: each frame writes a synthesis, and a synthesis of 320 samples splits at 160. -/
theorem twoShortFramesMakeALongOne : Obligations.TwoShortFramesMakeALongOne := by
  intro g t s ht
  obtain ⟨e, hrom⟩ := exists_romRead ht
  obtain ⟨samples, phase⟩ := synthSplitsAnywhere cfg e g s.phase.toNat 160 160
  refine ⟨_, _, _, exec_eq_next _ s, exec_eq_next _ _, exec_eq_next _ s, ?_, BitVec.eq_of_toNat_eq ?_⟩
  · simp only [effect, decodeFrame_playableFrame_audio hrom, decodeFrame_playableFrame_phase hrom]
    exact samples.symm
  · simp only [effect, decodeFrame_playableFrame_phase hrom]
    exact phase.symm

/-- Below the wrap a synthesis takes the same samples from a phase and from its remainder in the period. -/
theorem synthSample_rebased {p n i : Nat} (hp : p + n ≤ 2 ^ 32) (hi : i < n) (e : RomEntry) (g : GainStep) :
    synthSample cfg e g p i = synthSample cfg e g (p % 800000) i := by
  rw [synthSample, synthSample, cfg_advance, cfg_advance]
  have rest := Nat.mod_le p 800000
  refine sample_periodic ?_ cfg e.fh e.fl g
  rw [Nat.mod_eq_of_lt (by omega : p + i < 2 ^ 32), Nat.mod_eq_of_lt (by omega : p % 800000 + i < 2 ^ 32), Nat.mod_add_mod]

/-- Settles O38: the status does not depend on the phase, and below the wrap the samples are periodic in it. -/
theorem rebasedPhaseKeepsSamples : Obligations.RebasedPhaseKeepsSamples := by
  intro cls f s hwrap
  refine ⟨_, _, exec_eq_next _ s, exec_eq_next _ _, ?_, decodeFrame_status_congr cfg cls f s _⟩
  simp only [effect]
  cases hv : validate cfg cls f with
  | error r => rw [decodeFrame_audio_of_error hv, decodeFrame_audio_of_error hv]
  | ok e =>
    have rebased : (BitVec.ofNat cfg.phaseWidth (s.phase.toNat % 800000)).toNat = s.phase.toNat % 800000 := by
      rw [toNat_ofNat_phase]
      omega
    rw [decodeFrame_audio_of_ok hv, decodeFrame_audio_of_ok hv]
    refine List.map_congr_left fun i hi => ?_
    rw [rebased]
    exact synthSample_rebased hwrap (List.mem_range.mp hi) e _

end Sys2Proof.Machine
end
